-- ==== Sys2Proof/Word.lean ====
section
/-! DEFINITION. The word types and the plainest arithmetic (spec/00_scope.md R13, R14; spec/20_memory.md R60). -/

namespace Sys2Proof

/-- One 8-bit cell of a memory space (R60: "an array of 8-bit unsigned cells"). -/
abbrev Byte := BitVec 8

/-- `ceil(a / b)` as R13 writes it, `(a + b - 1) div b`; meaningful for `b > 0`. -/
def ceilDiv (a b : Nat) : Nat := (a + b - 1) / b

end Sys2Proof
end

