-- ==== Sys2Proof/Config.lean ====
section
/-! DEFINITION. What is fixed for the machine (spec/00_scope.md R10, R11) and the values the spec leaves free. -/

namespace Sys2Proof.Config

/-- `C`, channels per pixel (R10). -/
def channels : Nat := 3

/-- `PRO_CH`, cells of the prologue; also `PRO_BITS` (R10). -/
def prologueCells : Nat := 6

/-- `LEN_BITS`, the width of the length field (R10). -/
def lengthBits : Nat := 32

/-- `LEN_BYTES` (R10: "lengthFieldBytes fixed at 4"). -/
def lengthBytes : Nat := 4

/-- `OBF_ON`, "XOR key follows" (R10). -/
def obfOn : BitVec 3 := 0b111#3

/-- `OBF_OFF`, "no XOR key" (R10). -/
def obfOff : BitVec 3 := 0b000#3

/-- `MAX_BW`, the largest legal BitWidth (R11; 90_conflicts.md C3). -/
def maxWidth : Nat := 7

/-- FREE VALUE (log entries 4 and 5): the draws the spec leaves open, one for each count of `State.draws`.
It has no body, so no claim can rest on a value of it. -/
opaque freeDraw : Nat → Nat

/-- FREE VALUE (log entry 5): at the draw of the first argument, whether the byte of `PAY` at the index of the
second argument had already been stored when the reset input cut the running command. -/
opaque freeLanded : Nat → Nat → Bool

end Sys2Proof.Config
end

