-- ==== Sys2Proof/Syntax.lean ====
section
/-! DEFINITION. The instructions: the six commands and the ten sequencer phases of spec/opcode_table.json, and the two
word formats they are written in (spec/30_encoding.md R90, R92). -/

namespace Sys2Proof

/-- One constructor per row of spec/opcode_table.json. No row has an operand: a command's operands are in the input
registers (R90), a phase's in the internal registers (R23). -/
inductive Instr where
  /-- `ENCODE` (R201). -/
  | encode
  /-- `DECODE` (R202). -/
  | decode
  /-- `CAPACITY` (R153). -/
  | capacity
  /-- `XORAPPLY` (R143). -/
  | xorapply
  /-- `LOWONES` (R123). -/
  | lowones
  /-- `HIGHMASK` (R124). -/
  | highmask
  /-- phase `IDLE` (R22, R24). -/
  | idle
  /-- phase `E.CHECK` (R204). -/
  | eCheck
  /-- phase `E.PRO` (R172). -/
  | ePro
  /-- phase `E.LEN` (R176). -/
  | eLen
  /-- phase `E.PAY` (R187). -/
  | ePay
  /-- phase `D.PRO` (R173). -/
  | dPro
  /-- phase `D.LEN` (R177). -/
  | dLen
  /-- phase `D.PAY` (R189). -/
  | dPay
  /-- phase `X.RUN` (R143). -/
  | xRun
  /-- phase `Q.RUN` (R203). -/
  | qRun
  deriving DecidableEq, Repr

/-- An instruction word with its format. The two formats are read from different places (a write to `CMD`, the field
`STATUS.PHASE`), so a bare number does not say which of them it is. -/
inductive InstrWord where
  /-- format `CMD8` (R90): the value written to register `CMD`. -/
  | cmd (c : BitVec 8)
  /-- format `PHASE4` (R92): the code in `STATUS.PHASE`. -/
  | phase (p : BitVec 4)
  deriving DecidableEq, Repr

end Sys2Proof
end

