-- ==== Sys2Proof/WellFormed.lean ====
section
/-! DEFINITION. Which words and which instructions are well formed (spec/30_encoding.md R90, R91, R92, R101). -/

namespace Sys2Proof

/-- `OPC`, bits [3:0] of a command (R90). -/
def opcOf (c : BitVec 8) : BitVec 4 := c.extractLsb' 0 4

/-- `RSV`, bits [7:4] of a command (R90). -/
def rsvOf (c : BitVec 8) : BitVec 4 := c.extractLsb' 4 4

/-- R90: `RSV` "must be written 0". -/
def rsvClear (c : BitVec 8) : Bool := rsvOf c == 0#4

/-- R91: `OPC` is one of 1 .. 6; "no other value of `OPC` selects a command". -/
def opcAssigned (c : BitVec 8) : Bool := decide (1 ≤ (opcOf c).toNat) && decide ((opcOf c).toNat ≤ 6)

/-- R24: the phase codes are 0 .. 9; 10 .. 15 are "never taken by CORE". -/
def phaseAssigned (p : BitVec 4) : Bool := decide (p.toNat ≤ 9)

/-- A word that selects an instruction. -/
def InstrWord.wellFormed : InstrWord → Bool
  | .cmd c => rsvClear c && opcAssigned c
  | .phase p => phaseAssigned p

/-- An instruction has no operand of its own (R90, R92), so no term of `Instr` is ill formed; what can be ill formed is
a word, `InstrWord.wellFormed`. -/
def Instr.wellFormed : Instr → Bool
  | .encode | .decode | .capacity | .xorapply | .lowones | .highmask => true
  | .idle | .eCheck | .ePro | .eLen | .ePay | .dPro | .dLen | .dPay | .xRun | .qRun => true

end Sys2Proof
end

