-- ==== Sys2Proof/Decode.lean ====
section
/-! DEFINITION. Decoding and encoding of commands and phases (spec/30_encoding.md R90 to R92, R101;
spec/10_state.md R24; spec/opcode_table.json). -/

namespace Sys2Proof

/-- Why a word selects no instruction. -/
inductive DecodeRefusal where
  /-- a command whose reserved bits [7:4] are not 0 (R101). -/
  | reservedBits (rsv : BitVec 4)
  /-- a command whose `OPC` is 0 or 7 .. 15 (R101). -/
  | unassignedOpc (opc : BitVec 4)
  /-- a phase code 10 .. 15 (R24). -/
  | reservedPhase (p : BitVec 4)
  deriving DecidableEq, Repr

/-! Phase codes (R24). -/

def Phase.idle : BitVec 4 := 0#4
def Phase.eCheck : BitVec 4 := 1#4
def Phase.ePro : BitVec 4 := 2#4
def Phase.eLen : BitVec 4 := 3#4
def Phase.ePay : BitVec 4 := 4#4
def Phase.dPro : BitVec 4 := 5#4
def Phase.dLen : BitVec 4 := 6#4
def Phase.dPay : BitVec 4 := 7#4
def Phase.xRun : BitVec 4 := 8#4
def Phase.qRun : BitVec 4 := 9#4

/-- The command an operation code selects (R91). -/
def decodeOpc (opc : BitVec 4) : Option Instr :=
  match opc.toNat with
  | 1 => some .encode
  | 2 => some .decode
  | 3 => some .capacity
  | 4 => some .xorapply
  | 5 => some .lowones
  | 6 => some .highmask
  | _ => none

/-- A command word (R90, R91); `RSV` is looked at first, then `OPC` (R101). -/
def decodeCommand (c : BitVec 8) : Except DecodeRefusal Instr :=
  if rsvOf c ≠ 0#4 then .error (.reservedBits (rsvOf c))
  else
    match decodeOpc (opcOf c) with
    | some i => .ok i
    | none => .error (.unassignedOpc (opcOf c))

/-- A phase code (R24, R92). -/
def decodePhase (p : BitVec 4) : Except DecodeRefusal Instr :=
  match p.toNat with
  | 0 => .ok .idle
  | 1 => .ok .eCheck
  | 2 => .ok .ePro
  | 3 => .ok .eLen
  | 4 => .ok .ePay
  | 5 => .ok .dPro
  | 6 => .ok .dLen
  | 7 => .ok .dPay
  | 8 => .ok .xRun
  | 9 => .ok .qRun
  | _ => .error (.reservedPhase p)

/-- The decoder: total on the words of both formats. -/
def decode : InstrWord → Except DecodeRefusal Instr
  | .cmd c => decodeCommand c
  | .phase p => decodePhase p

/-- The word of an instruction (R91 for commands, R24 for phases). -/
def encode : Instr → InstrWord
  | .encode => .cmd 0x01#8
  | .decode => .cmd 0x02#8
  | .capacity => .cmd 0x03#8
  | .xorapply => .cmd 0x04#8
  | .lowones => .cmd 0x05#8
  | .highmask => .cmd 0x06#8
  | .idle => .phase 0x0#4
  | .eCheck => .phase 0x1#4
  | .ePro => .phase 0x2#4
  | .eLen => .phase 0x3#4
  | .ePay => .phase 0x4#4
  | .dPro => .phase 0x5#4
  | .dLen => .phase 0x6#4
  | .dPay => .phase 0x7#4
  | .xRun => .phase 0x8#4
  | .qRun => .phase 0x9#4

/-- A word of spec/opcode_table.json as the table numbers its bits. The table has rows of 4 bits (`PHASE4`) and of 8
bits (`CMD8`). A word of at most 4 bits is a phase code. A word said to have a whole byte is a command where the table
has a `CMD8` row of that value, else a phase code where the table has a `PHASE4` row of it, else a command that the
decoder refuses (log entry 10). -/
def tableWord (nbits w : Nat) : Option InstrWord :=
  if nbits ≤ 4 then
    if w < 16 then some (.phase (BitVec.ofNat 4 w)) else none
  else if w < 256 then
    if (InstrWord.cmd (BitVec.ofNat 8 w)).wellFormed then some (.cmd (BitVec.ofNat 8 w))
    else if w ≤ 9 then some (.phase (BitVec.ofNat 4 w))
    else some (.cmd (BitVec.ofNat 8 w))
  else none

/-- What the decoder reads from a word of the opcode table. -/
def decodeTableWord (nbits w : Nat) : Option Instr :=
  match tableWord nbits w with
  | none => none
  | some iw =>
    match decode iw with
    | .ok i => some i
    | .error _ => none

end Sys2Proof
end

