-- ==== Sys2Proof/Machine/State.lean ====
section
/-! DEFINITION. The state of one CORE instance and of the memories and the host it works with
(spec/10_state.md R20 to R29; spec/20_memory.md R60), the state after reset, and the reasons a step can stop. -/

namespace Sys2Proof.Machine

/-- The three byte-addressed memory spaces (R60). -/
inductive Space where
  | grid
  | pay
  | key
  deriving DecidableEq, Repr

/-- `STATUS.STATE` (R22): four values, four names. -/
inductive RunState where
  /-- 0: no command since reset. -/
  | idle
  /-- 1: a command is running. -/
  | busy
  /-- 2: the last command completed without failure. -/
  | done
  /-- 3: the last command ended with the failure kind in `FAULT`. -/
  | fault
  deriving DecidableEq, Repr

/-- The failure kinds of R231. A failure is a NEXT state with `STATE = FAULT` (R242); it is not a stop of the model. -/
inductive Failure where
  /-- code 1: never raised by CORE, reserved for the host (R233). -/
  | invalidImage
  /-- code 2 (R234). -/
  | corruptHeader
  /-- code 3 (R235). -/
  | invalidBitWidth
  /-- code 4 (R236). -/
  | missingKey
  /-- code 5 (R237). -/
  | invalidKey
  /-- code 6 (R239). -/
  | payloadTooLarge
  /-- code 7 (R238). -/
  | cursorExhausted
  /-- code 8 (R232). -/
  | maskRange
  /-- code 9 (R240). -/
  | illegalCommand
  deriving DecidableEq, Repr

/-- What the host does next (R105: "each line is exactly one `HostWrite`, `HostRead` or memory load"; R260 for the
reset input). Log entry 1: the model holds the host's coming actions as a list in State. -/
inductive HostAction where
  /-- `HostWrite(n, v)` (R21). -/
  | write (n v : Nat)
  /-- `HostRead(n)` (R21). -/
  | read (n : Nat)
  /-- the host stores a byte into its own storage (R60, R266). -/
  | store (sp : Space) (a : Nat) (b : Byte)
  /-- the host reads a byte of its own storage (R60, R266). -/
  | load (sp : Space) (a : Nat)
  /-- the host waits until `STATUS.STATE != BUSY` (R105). -/
  | wait
  /-- the host lets CORE run one phase before its next action (log entry 1). -/
  | advance
  /-- the platform asserts the reset input (R260). -/
  | reset
  deriving DecidableEq, Repr

/-- A memory space: pairs of an index and the byte there, in the canonical form `Memory.wf` (Machine/Ops.lean). -/
abbrev Memory := List Host.Cell

/-- Everything the spec gives the machine, the three memories it borrows (R60, R61), and the model's own fields. -/
structure State where
  /-- register 0 `CMD`, 8 bits (R21): the last accepted write; it reads as 0 (WO). Log entry 6. -/
  cmd : BitVec 8
  /-- `STATUS.STATE` (R22). -/
  run : RunState
  /-- `STATUS.PHASE`, 4 bits (R24). -/
  phase : BitVec 4
  /-- register 2 `FAULT` (R21, R231): no failure is code 0. -/
  fault : Option Failure
  /-- register 3 `GRID_H`, 16 bits (R21). -/
  gridH : BitVec 16
  /-- register 4 `GRID_W`, 16 bits (R21). -/
  gridW : BitVec 16
  /-- register 5 `BW_IN`, 4 bits (R21). -/
  bwIn : BitVec 4
  /-- register 6 `KEY_CTL`, 1 bit: `KEY_PRESENT` (R21). -/
  keyCtl : BitVec 1
  /-- register 7 `KEY_LEN`, 32 bits (R21). -/
  keyLen : BitVec 32
  /-- register 8 `PAY_LEN`, 32 bits (R21). -/
  payLen : BitVec 32
  /-- register 9 `ARG`, 4 bits (R21). -/
  arg : BitVec 4
  /-- register 10 `RESULT`, 64 bits, two's complement (R21). -/
  result : BitVec 64
  /-- register 11 `LEN_OUT`, 32 bits (R21). -/
  lenOut : BitVec 32
  /-- register 12 `BW_OUT`, 4 bits (R21). -/
  bwOut : BitVec 4
  /-- register 13 `OBF_OUT`, 3 bits (R21). -/
  obfOut : BitVec 3
  /-- register 14 `CUR`, 34 bits (R21, R131). -/
  cur : BitVec 34
  /-- internal `BW`, 4 bits (R23). -/
  bw : BitVec 4
  /-- internal `OBF`, 3 bits (R23). -/
  obf : BitVec 3
  /-- internal `PRO`, 6 bits (R23). -/
  pro : BitVec 6
  /-- internal `LEN`, 32 bits (R23). -/
  len : BitVec 32
  /-- internal `V`, an unbounded natural (R23). -/
  v : Nat
  /-- internal `NC`, 36 bits (R23). -/
  nc : BitVec 36
  /-- internal `CI`, 36 bits (R23). -/
  ci : BitVec 36
  /-- internal `KEYOK`, 1 bit (R23). -/
  keyok : Bool
  /-- space `GRID` (R60, R62). -/
  grid : Memory
  /-- space `PAY` (R60, R63). -/
  pay : Memory
  /-- space `KEY` (R60, R63). -/
  key : Memory
  /-- the MODEL's own: the host's coming actions, the next one first (log entry 1). -/
  host : List HostAction
  /-- the MODEL's own: the value the last host read or load answered (log entry 15). -/
  readData : BitVec 64
  /-- the MODEL's own: how many free values have been drawn (log entries 4, 5 and 15). -/
  draws : Nat
  deriving DecidableEq, Repr

/-- R29: reset "sets every register of rules R21 and R23 to 0". The memories list nothing (log entry 2), and the host has
no action pending (log entries 11 and 15). -/
def State.reset : State where
  cmd := 0#8
  run := .idle
  phase := 0#4
  fault := none
  gridH := 0#16
  gridW := 0#16
  bwIn := 0#4
  keyCtl := 0#1
  keyLen := 0#32
  payLen := 0#32
  arg := 0#4
  result := 0#64
  lenOut := 0#32
  bwOut := 0#4
  obfOut := 0#3
  cur := 0#34
  bw := 0#4
  obf := 0#3
  pro := 0#6
  len := 0#32
  v := 0
  nc := 0#36
  ci := 0#36
  keyok := false
  grid := []
  pay := []
  key := []
  host := []
  readData := 0#64
  draws := 0

/-- Where a step stops because a rule's own precondition does not hold. All four are SAFE (log entry 9), and no state
that the invariant of Safety.lean holds of reaches one. -/
inductive Fault where
  /-- raised by `E.LEN`, `E.PAY`, `D.LEN`, `D.PAY` when `BW` is not in 1 .. 7: R160 to R164 give the packer no meaning
  there, and `LC(0)` and `PC(n, 0)` divide by zero. Safe. -/
  | widthNotLegal (bw : BitVec 4)
  /-- raised by the XOR stream when `KEY_LEN = 0` and a byte is to be transformed: R140 "Undefined for `KEY_LEN = 0`". Safe. -/
  | emptyKeyStream
  /-- raised by `Write(k, v)` when `k` is not the position just yielded: the `require` of R134. Safe. -/
  | writeNotYielded
  /-- raised by `Q.RUN` when the command that was issued is none of `CAPACITY`, `LOWONES`, `HIGHMASK`: R203 gives
  the phase the pseudocode of the issued command, and only these three have one in it. Safe. -/
  | queryWithoutCommand (cmd : BitVec 8)
  deriving DecidableEq, Repr

/-- What the model gives no meaning. All are SAFE: the model stops. -/
inductive Refusal where
  /-- an arm of `exec` without a meaning. Safe. -/
  | notModelled (mnemonic : String)
  /-- raised by the sequencer on a phase code 10 .. 15, "never taken by CORE" (R24). Safe. -/
  | reservedPhase (p : BitVec 4)
  /-- raised by the host port on a register number above 14: R21 numbers 0 .. 14 only (log entry 8). Safe. -/
  | noSuchRegister (n : Nat)
  /-- raised by the host port when the host touches a memory while `STATE = BUSY`: R266 "refuses it". Safe. -/
  | hostMemoryWhileBusy
  deriving DecidableEq, Repr

end Sys2Proof.Machine
end

