-- ==== Sys2Proof/Machine/Operands.lean ====
section
/-! DEFINITION. The masks, and every operand form the rules assemble: widths, counts, the capacity formula, the prologue
fields, the key conditions, the payload integer (spec/40_bitmask.md, 43_capacity.md, 30_encoding.md, 46_payload.md). -/

namespace Sys2Proof.Machine

/-! ### BitMask -/

/-- R120 `lowOnes(n) = 2^n - 1`, for `0 <= n <= 8` and for no other `n` (R122). -/
def lowOnes (n : Fin 9) : Byte := BitVec.ofNat 8 (2 ^ n.val - 1)

/-- R121 `highMask(n) = lowOnes(8) XOR lowOnes(n)`. -/
def highMask (n : Fin 9) : Byte := lowOnes 8 ^^^ lowOnes n

/-- The operand of `LOWONES` and `HIGHMASK` (R123, R124): none when it is above 8, the failing case of R122. -/
def maskWidth (n : BitVec 4) : Option (Fin 9) :=
  if h : n.toNat ≤ 8 then some ⟨n.toNat, by omega⟩ else none

/-- A legal BitWidth, 1 .. `MAX_BW` (R98, R11): none for 0 and 8 .. 15. -/
def legalWidth (bw : BitVec 4) : Option (Fin 9) :=
  if h : 1 ≤ bw.toNat ∧ bw.toNat ≤ Config.maxWidth then some ⟨bw.toNat, by unfold Config.maxWidth at h; omega⟩ else none

/-! ### Counts -/

/-- R12 `N = GRID_H * GRID_W * C`. -/
def State.gridSize (s : State) : Nat := s.gridH.toNat * s.gridW.toNat * Config.channels

/-- R12 `LC(bw) = ceil(32 / bw)`, for `bw >= 1`. -/
def lengthChunks (bw : Nat) : Nat := ceilDiv Config.lengthBits bw

/-- R12 `PC(size, bw) = ceil(8 * size / bw)`, for `bw >= 1`. -/
def payloadChunks (size bw : Nat) : Nat := ceilDiv (8 * size) bw

/-- R62: the linear index of the channel at `(row, col, ch)` in a grid of `w` columns. -/
def linearIndex (w row col ch : Nat) : Nat := (row * w + col) * Config.channels + ch

/-- R62, R130: the position `(row, col, ch)` of cell `k` in a grid of `w` columns. -/
def positionOf (w k : Nat) : Nat × Nat × Nat :=
  (k / (w * Config.channels), (k / Config.channels) % w, k % Config.channels)

/-- R150 `Available(N, bw) = (((N - 6) * bw) div 8) - 4 - 1`, signed, `div` toward minus infinity. -/
def available (n bw : Nat) : Int :=
  Int.fdiv (((n : Int) - Config.prologueCells) * bw) 8 - Config.lengthBytes - 1

/-! ### The key -/

/-- `KEY_PRESENT`, bit 0 of `KEY_CTL` (R93). -/
def State.keyPresent (s : State) : Bool := s.keyCtl == 1#1

/-- The key is not empty: `KEY_LEN >= 1` (R142). -/
def State.keyFilled (s : State) : Bool := s.keyLen != 0#32

/-- R142: the key is usable when it is present and not empty. -/
def State.keyUsable (s : State) : Bool := s.keyPresent && s.keyFilled

/-! ### The prologue -/

/-- R99, R172: the flag `OBF` written, from `KEYOK`. -/
def flagOf (keyok : Bool) : BitVec 3 := if keyok then Config.obfOn else Config.obfOff

/-- R99 `PRO = (OBF << 3) OR (BW AND lowOnes(3))`. -/
def prologueOf (obf : BitVec 3) (bw : BitVec 4) : BitVec 6 :=
  (obf.setWidth 6 <<< 3) ||| (bw.setWidth 6 &&& (lowOnes 3).setWidth 6)

/-- R99 `OBF = (PRO >> 3) AND lowOnes(3)`. -/
def obfField (pro : BitVec 6) : BitVec 3 := ((pro >>> 3) &&& (lowOnes 3).setWidth 6).setWidth 3

/-- R98, R99 `BWF = PRO AND lowOnes(3)`, zero-extended to 4 bits. -/
def widthField (pro : BitVec 6) : BitVec 4 := (pro &&& (lowOnes 3).setWidth 6).setWidth 4

/-! ### The payload as an integer -/

/-- R185 `ToInt(B)`: the bytes as one big-endian integer, index 0 the most significant. -/
def toInt (bs : List Byte) : Nat := bs.foldl (fun acc b => acc * 256 + b.toNat) 0

/-- R185 `ToBytes(V, size)[i] = (V >> (8 * (size - 1 - i))) mod 256`. -/
def byteAt (v size i : Nat) : Byte := BitVec.ofNat 8 ((v >>> (8 * (size - 1 - i))) % 256)

/-- R185 `ToBytes(V, size)`. -/
def toBytes (v size : Nat) : List Byte := (List.range size).map (byteAt v size)

end Sys2Proof.Machine
end

