-- ==== Sys2Proof/Machine/Flags.lean ====
section
/-! DEFINITION. The status words a host can read: `STATUS`, `FAULT` and their codes (spec/10_state.md R22, R25;
spec/30_encoding.md R93; spec/60_exceptions.md R231). CORE has no condition codes (R25). -/

namespace Sys2Proof.Machine

/-- The codes of `STATUS.STATE` (R22). -/
def RunState.code : RunState → BitVec 2
  | .idle => 0#2
  | .busy => 1#2
  | .done => 2#2
  | .fault => 3#2

/-- The codes of the failure kinds (R231). -/
def Failure.code : Failure → BitVec 4
  | .invalidImage => 1#4
  | .corruptHeader => 2#4
  | .invalidBitWidth => 3#4
  | .missingKey => 4#4
  | .invalidKey => 5#4
  | .payloadTooLarge => 6#4
  | .cursorExhausted => 7#4
  | .maskRange => 8#4
  | .illegalCommand => 9#4

/-- `FAULT[3:0]` (R231): code 0 when there is no failure. -/
def faultCode : Option Failure → BitVec 4
  | none => 0#4
  | some f => f.code

/-- R93: `STATUS` has `STATE` in [1:0], `PHASE` in [5:2] and zeros above. -/
def statusWord (r : RunState) (p : BitVec 4) : BitVec 32 := 0#26 ++ p ++ r.code

/-- R93: `FAULT` has the code in [3:0] and zeros above. -/
def faultWord (f : Option Failure) : BitVec 32 := 0#28 ++ faultCode f

/-- R25: the cursor's `Exhausted` condition, "not stored but computed as `x[CUR] >= N`". -/
def State.exhausted (s : State) : Bool := decide (s.cur.toNat ≥ s.gridSize)

end Sys2Proof.Machine
end

