-- ==== Sys2Proof/Machine/Ops.lean ====
section
/-! DEFINITION. The operations every meaning is written with: the byte memories, failure entry, the start and the end of
a command, the cursor, the chunk packer and unpacker, the XOR stream. -/

namespace Sys2Proof.Machine

/-! ### Memory (R60, R63, R69, R71) -/

/-- What an index nothing was stored at reads as. DESIGN CHOICE, log entry 2: R29 and R261 give the memories no reset
contents. -/
def unlistedByte : Byte := 0#8

/-- `MemRead(S, a, 1)` on one space (R15). -/
def Memory.read : Memory → Nat → Byte
  | [], _ => unlistedByte
  | (k, b) :: rest, a => if k = a then b else Memory.read rest a

/-- `MemWrite(S, a, 1, b)` on one space (R15); it keeps the canonical form. -/
def Memory.write : Memory → Nat → Byte → Memory
  | [], a, b => if b = unlistedByte then [] else [(a, b)]
  | (k, c) :: rest, a, b =>
    if a < k then (if b = unlistedByte then (k, c) :: rest else (a, b) :: (k, c) :: rest)
    else if a = k then (if b = unlistedByte then rest else (k, b) :: rest)
    else (k, c) :: Memory.write rest a b

/-- Every index of the list is at least `lo`, the indices rise strictly, and no byte is the unlisted one. -/
def Memory.wfFrom : Nat → Memory → Bool
  | _, [] => true
  | lo, (k, b) :: rest => decide (lo ≤ k) && b != unlistedByte && Memory.wfFrom (k + 1) rest

/-- The canonical form of a memory. -/
def Memory.wf (m : Memory) : Bool := Memory.wfFrom 0 m

/-- The memory whose bytes are those of `new` at the indices chosen and those of `old` elsewhere. -/
def Memory.blend (chosen : Nat → Bool) (new old : Memory) : Memory :=
  (new.filter fun c => chosen c.1).foldl (fun m c => m.write c.1 c.2) (old.filter fun c => !chosen c.1)

/-- The memory of a space. -/
def State.memory (s : State) : Space → Memory
  | .grid => s.grid
  | .pay => s.pay
  | .key => s.key

/-- `s` with a space replaced. -/
def State.setMemory (s : State) (sp : Space) (m : Memory) : State :=
  match sp with
  | .grid => { s with grid := m }
  | .pay => { s with pay := m }
  | .key => { s with key := m }

/-! ### Failures, the start and the end of a command -/

/-- R242, failure entry: `x[FAULT] <- code(F); x[PHASE] <- IDLE; x[STATE] <- FAULT`, and "nothing else changes". There is
no return from it but the next accepted `CMD` write, `startCommand` (R244). -/
def failEntry (f : Failure) (s : State) : State :=
  { s with fault := some f, phase := Phase.idle, run := .fault }

/-- R203 "done": `x[PHASE] <- IDLE; x[STATE] <- DONE`. -/
def finishCommand (s : State) : State := { s with phase := Phase.idle, run := .done }

/-- R27, the initialisation when a `CMD` write is accepted. It is also the only return from a failure (R244). -/
def startCommand (s : State) : State :=
  { s with
    run := .busy, fault := none, result := 0#64, lenOut := 0#32, bwOut := 0#4, obfOut := 0#3, cur := 0#34,
    bw := 0#4, obf := 0#3, pro := 0#6, len := 0#32, v := 0, nc := 0#36, ci := 0#36, keyok := false }

/-- R200 for a command that exists: ignored while `BUSY`, else R27 and the command's first phase. -/
def issueCommand (c : BitVec 8) (first : BitVec 4) (s : State) : Host.Outcome State Fault Refusal :=
  if s.run = .busy then .next s else .next { startCommand s with cmd := c, phase := first }

/-- R200, R101 for a value that selects no command: ignored while `BUSY`, else R27 and `IllegalCommand`. -/
def illegalCommand (c : BitVec 8) (s : State) : Host.Outcome State Fault Refusal :=
  if s.run = .busy then .next s else .next (failEntry .illegalCommand { startCommand s with cmd := c })

/-- How a piece of a phase's pseudocode ends: it goes on with a value, it raises a failure in the state reached (R230), or
a rule's precondition did not hold. -/
inductive Eff (α : Type) where
  | ok (a : α) (s : State)
  | raise (f : Failure) (s : State)
  | stop (r : Fault)

/-- Sequencing: "nothing after it in the pseudocode runs" when the first part raises (R15, R230). -/
def Eff.bind {α β : Type} (x : Eff α) (k : α → State → Eff β) : Eff β :=
  match x with
  | .ok a s => k a s
  | .raise f s => .raise f s
  | .stop r => .stop r

/-- The outcome of a phase: a raised failure is entered (R242). -/
def Eff.outcome (x : Eff Unit) : Host.Outcome State Fault Refusal :=
  match x with
  | .ok _ s => .next s
  | .raise f s => .next (failEntry f s)
  | .stop r => .fault r

/-! ### PixelCursor -/

/-- R132 `Next()`. -/
def next (s : State) : Eff (Nat × Byte) :=
  if s.exhausted then .raise .cursorExhausted s
  else .ok (s.cur.toNat, s.grid.read s.cur.toNat) { s with cur := BitVec.ofNat 34 (s.cur.toNat + 1) }

/-- R134 `Write(k, v)`, with its `require k == x[CUR] - 1`. -/
def writeCell (k : Nat) (b : Byte) (s : State) : Eff Unit :=
  if k + 1 = s.cur.toNat then .ok () { s with grid := s.grid.write k b } else .stop .writeNotYielded

/-! ### Chunk packer and unpacker -/

/-- R160: the new value of a cell, `(old AND highMask(bw)) OR (c AND lowOnes(bw))`. -/
def mergeChunk (old : Byte) (c : Nat) (bw : Fin 9) : Byte :=
  (old &&& highMask bw) ||| (BitVec.ofNat 8 c &&& lowOnes bw)

/-- R161: the chunk in a cell, `v AND lowOnes(bw)`. -/
def chunkOf (b : Byte) (bw : Fin 9) : Nat := (b &&& lowOnes bw).toNat

/-- R160 `PutChunk(c, bw)`. -/
def putChunk (c : Nat) (bw : Fin 9) (s : State) : Eff Unit :=
  (next s).bind fun kv s => writeCell kv.1 (mergeChunk kv.2 c bw) s

/-- R161 `GetChunk(bw)`. -/
def getChunk (bw : Fin 9) (s : State) : Eff Nat :=
  (next s).bind fun kv s => .ok (chunkOf kv.2 bw) s

/-- The loop of R162: `left` chunks are still to be written, the next one is chunk `i`. -/
def packLoop (bw : Fin 9) : Nat → Nat → State → Eff Unit
  | 0, i, s => .ok () { s with ci := BitVec.ofNat 36 i }
  | left + 1, i, s =>
    (putChunk (s.v % 2 ^ bw.val) bw { s with ci := BitVec.ofNat 36 i }).bind fun _ s =>
      packLoop bw left (i + 1) { s with v := s.v >>> bw.val }

/-- R162 `Pack(val, n, bw)`. -/
def pack (val n : Nat) (bw : Fin 9) (s : State) : Eff Unit :=
  packLoop bw n 0 { s with v := val, nc := BitVec.ofNat 36 n }

/-- The loop of R164. -/
def unpackLoop (bw : Fin 9) : Nat → Nat → State → Eff Unit
  | 0, i, s => .ok () { s with ci := BitVec.ofNat 36 i }
  | left + 1, i, s =>
    (getChunk bw { s with ci := BitVec.ofNat 36 i }).bind fun c s =>
      unpackLoop bw left (i + 1) { s with v := s.v ||| (c <<< (i * bw.val)) }

/-- R164 `Unpack(n, bw)`; it answers `x[V]`. -/
def unpack (n : Nat) (bw : Fin 9) (s : State) : Eff Nat :=
  (unpackLoop bw n 0 { s with v := 0, nc := BitVec.ofNat 36 n }).bind fun _ s => .ok s.v s

/-- R167 `NeedRoom(n)`. -/
def needRoom (n : Nat) (s : State) : Eff Unit :=
  if (s.gridSize : Int) - s.cur.toNat < n then .raise .cursorExhausted s else .ok () s

/-! ### XorStream -/

/-- R140 `XorByte(i, b) = b XOR KEY[i mod KEY_LEN]`, for `KEY_LEN >= 1`. -/
def State.xorByte (s : State) (i : Nat) (b : Byte) : Byte := b ^^^ s.key.read (i % s.keyLen.toNat)

/-- R140: the stream has no meaning for an empty key; a stream of no bytes asks for none. -/
def State.streamUndefined (s : State) (size : Nat) : Bool := !s.keyFilled && decide (size ≠ 0)

/-- A payload byte on its way into or out of the grid: transformed when `KEYOK = 1` (R186, R189). -/
def State.veil (s : State) (i : Nat) (b : Byte) : Byte := if s.keyok then s.xorByte i b else b

/-- R186: the bytes `D` that are packed. -/
def State.payloadBytes (s : State) (size : Nat) : List Byte :=
  (List.range size).map fun i => s.veil i (s.pay.read i)

end Sys2Proof.Machine
end

