-- ==== Sys2Proof/Machine/BitMask.lean ====
section
/-! DEFINITION. BitMask: the commands `LOWONES` and `HIGHMASK` (spec/40_bitmask.md R123, R124). -/

namespace Sys2Proof.Machine

/-- `LOWONES`, command 0x05 (R91, R200); its single phase is `Q.RUN` (R203). -/
def execLowones (s : State) : Host.Outcome State Fault Refusal := issueCommand 0x05#8 Phase.qRun s

/-- `HIGHMASK`, command 0x06 (R91, R200); its single phase is `Q.RUN` (R203). -/
def execHighmask (s : State) : Host.Outcome State Fault Refusal := issueCommand 0x06#8 Phase.qRun s

/-- The pseudocode of R123. -/
def queryLowones (s : State) : Eff Unit :=
  match maskWidth s.arg with
  | none => .raise .maskRange s
  | some n => .ok () (finishCommand { s with result := (lowOnes n).setWidth 64 })

/-- The pseudocode of R124. -/
def queryHighmask (s : State) : Eff Unit :=
  match maskWidth s.arg with
  | none => .raise .maskRange s
  | some n => .ok () (finishCommand { s with result := (highMask n).setWidth 64 })

end Sys2Proof.Machine
end

