-- ==== Sys2Proof/Machine/Capacity.lean ====
section
/-! DEFINITION. CapacityPlanner: the command `CAPACITY` (spec/43_capacity.md R153). -/

namespace Sys2Proof.Machine

/-- `CAPACITY`, command 0x03 (R91, R200); its single phase is `Q.RUN` (R203). -/
def execCapacity (s : State) : Host.Outcome State Fault Refusal := issueCommand 0x03#8 Phase.qRun s

/-- The pseudocode of R153. -/
def queryCapacity (s : State) : Eff Unit :=
  match legalWidth s.bwIn with
  | none => .raise .invalidBitWidth s
  | some bw => .ok () (finishCommand { s with result := BitVec.ofInt 64 (available s.gridSize bw.val) })

end Sys2Proof.Machine
end

