-- ==== Sys2Proof/Machine/Header.lean ====
section
/-! DEFINITION. HeaderCodec: the phases `E.PRO`, `E.LEN`, `D.PRO`, `D.LEN` (spec/45_header.md). -/

namespace Sys2Proof.Machine

/-- Phase `E.PRO` (R172): write the prologue, one bit per cell. -/
def execEPro (s : State) : Host.Outcome State Fault Refusal :=
  let obf := flagOf s.keyok
  let pro := prologueOf obf s.bw
  ((pack pro.toNat Config.prologueCells 1 { s with obf := obf, pro := pro }).bind fun _ s =>
    .ok () { s with phase := Phase.eLen }).outcome

/-- Phase `E.LEN` (R176): write the length field at the active BitWidth. -/
def execELen (s : State) : Host.Outcome State Fault Refusal :=
  match legalWidth s.bw with
  | none => .fault (.widthNotLegal s.bw)
  | some bw =>
    ((pack s.len.toNat (lengthChunks bw.val) bw s).bind fun _ s => .ok () { s with phase := Phase.ePay }).outcome

/-- The validation of a prologue already in `PRO`, and the key checks (R173, R174). -/
def validatePrologue (s : State) : Eff Unit :=
  let obf := obfField s.pro
  let bwf := widthField s.pro
  if obf ≠ Config.obfOn ∧ obf ≠ Config.obfOff then .raise .corruptHeader s
  else if bwf.toNat < 1 ∨ bwf.toNat > 8 then .raise .invalidBitWidth s
  else
    let s := { s with obf := obf, bw := bwf }
    if obf = Config.obfOn then
      if !s.keyPresent then .raise .missingKey s
      else if !s.keyFilled then .raise .invalidKey s
      else .ok () { s with keyok := true, phase := Phase.dLen }
    else .ok () { s with keyok := false, phase := Phase.dLen }

/-- Phase `D.PRO` (R173): read and validate the prologue. -/
def execDPro (s : State) : Host.Outcome State Fault Refusal :=
  ((needRoom Config.prologueCells s).bind fun _ s =>
    (unpack Config.prologueCells 1 s).bind fun v s =>
      validatePrologue { s with pro := BitVec.ofNat 6 v }).outcome

/-- Phase `D.LEN` (R177): read the length field, reduced to 32 bits (R166), and check the payload's room. -/
def execDLen (s : State) : Host.Outcome State Fault Refusal :=
  match legalWidth s.bw with
  | none => .fault (.widthNotLegal s.bw)
  | some bw =>
    ((needRoom (lengthChunks bw.val) s).bind fun _ s =>
      (unpack (lengthChunks bw.val) bw s).bind fun v s =>
        let s := { s with len := BitVec.ofNat 32 (v % 2 ^ Config.lengthBits) }
        (needRoom (payloadChunks s.len.toNat bw.val) s).bind fun _ s =>
          .ok () { s with phase := Phase.dPay }).outcome

end Sys2Proof.Machine
end

