-- ==== Sys2Proof/Machine/Payload.lean ====
section
/-! DEFINITION. PayloadCodec: the phases `E.PAY` and `D.PAY` (spec/46_payload.md). -/

namespace Sys2Proof.Machine

/-- Phase `E.PAY` (R187): write the payload, and end the command. -/
def execEPay (s : State) : Host.Outcome State Fault Refusal :=
  match legalWidth s.bw with
  | none => .fault (.widthNotLegal s.bw)
  | some bw =>
    let size := s.len.toNat
    if s.keyok && s.streamUndefined size then .fault .emptyKeyStream
    else
      ((pack (toInt (s.payloadBytes size)) (payloadChunks size bw.val) bw s).bind fun _ s =>
        .ok () (finishCommand { s with bwOut := s.bw, obfOut := s.obf })).outcome

/-- The loop of R189: `left` bytes are still to be stored, the next one is byte `i` of the `size` bytes of `val`. -/
def storeLoop (val size : Nat) : Nat → Nat → State → State
  | 0, _, s => s
  | left + 1, i, s =>
    storeLoop val size left (i + 1) { s with pay := s.pay.write i (s.veil i (byteAt val size i)) }

/-- Phase `D.PAY` (R189): read the payload, reduced to `8 * LEN` bits (R166), store it, and end the command. -/
def execDPay (s : State) : Host.Outcome State Fault Refusal :=
  match legalWidth s.bw with
  | none => .fault (.widthNotLegal s.bw)
  | some bw =>
    let size := s.len.toNat
    ((unpack (payloadChunks size bw.val) bw s).bind fun v s =>
      if s.keyok && s.streamUndefined size then .stop .emptyKeyStream
      else
        let s := storeLoop (v % 2 ^ (8 * size)) size size 0 s
        .ok () (finishCommand { s with lenOut := s.len, bwOut := s.bw, obfOut := s.obf })).outcome

end Sys2Proof.Machine
end

