-- ==== Sys2Proof/Machine/Xor.lean ====
section
/-! DEFINITION. XorStream: the command `XORAPPLY` and its phase `X.RUN` (spec/42_xorstream.md R143). -/

namespace Sys2Proof.Machine

/-- `XORAPPLY`, command 0x04 (R91, R200); its single phase is `X.RUN` (R203). -/
def execXorapply (s : State) : Host.Outcome State Fault Refusal := issueCommand 0x04#8 Phase.xRun s

/-- The loop of R143: `left` bytes are still to be transformed, the next one is byte `i`. -/
def xorLoop : Nat → Nat → State → State
  | 0, _, s => s
  | left + 1, i, s => xorLoop left (i + 1) { s with pay := s.pay.write i (s.xorByte i (s.pay.read i)) }

/-- Phase `X.RUN` (R143): the key is checked before any byte of `PAY` is read or written. -/
def execXRun (s : State) : Host.Outcome State Fault Refusal :=
  if s.keyUsable then .next (finishCommand (xorLoop s.payLen.toNat 0 s)) else .next (failEntry .invalidKey s)

end Sys2Proof.Machine
end

