-- ==== Sys2Proof/Machine/Commands.lean ====
section
/-! DEFINITION. The commands `ENCODE` and `DECODE`, and the phases `IDLE`, `E.CHECK` and `Q.RUN` (spec/47_commands.md). -/

namespace Sys2Proof.Machine

/-- `ENCODE`, command 0x01 (R200, R201): its phases are `E.CHECK`, `E.PRO`, `E.LEN`, `E.PAY` (R203), which the following
steps run. -/
def execEncode (s : State) : Host.Outcome State Fault Refusal := issueCommand 0x01#8 Phase.eCheck s

/-- `DECODE`, command 0x02 (R200, R202): its phases are `D.PRO`, `D.LEN`, `D.PAY` (R203), which the following steps run. -/
def execDecode (s : State) : Host.Outcome State Fault Refusal := issueCommand 0x02#8 Phase.dPro s

/-- Phase `IDLE` (R24: "nothing; value whenever `STATE` is not `BUSY`"). -/
def execIdle (s : State) : Host.Outcome State Fault Refusal := .next s

/-- Phase `E.CHECK` (R204): the checks before any grid access. -/
def execECheck (s : State) : Host.Outcome State Fault Refusal :=
  match legalWidth s.bwIn with
  | none => .next (failEntry .invalidBitWidth s)
  | some bw =>
    if s.keyPresent && !s.keyFilled then .next (failEntry .invalidKey s)
    else if (s.payLen.toNat : Int) > available s.gridSize bw.val then .next (failEntry .payloadTooLarge s)
    else .next { s with bw := s.bwIn, len := s.payLen, keyok := s.keyPresent, phase := Phase.ePro }

/-- Phase `Q.RUN` (R203): "the pseudocode run is that of the command that was issued". -/
def execQRun (s : State) : Host.Outcome State Fault Refusal :=
  match decodeCommand s.cmd with
  | .ok .capacity => (queryCapacity s).outcome
  | .ok .lowones => (queryLowones s).outcome
  | .ok .highmask => (queryHighmask s).outcome
  | _ => .fault (.queryWithoutCommand s.cmd)

end Sys2Proof.Machine
end

