-- ==== Sys2Proof/Machine/Dispatch.lean ====
section
/-! DEFINITION. The meaning of every instruction: one arm per constructor, each a call of that instruction's own meaning. -/

namespace Sys2Proof.Machine

def exec (i : Instr) (s : State) : Host.Outcome State Fault Refusal :=
  match i with
  | .encode => Sys2Proof.Machine.execEncode s
  | .decode => Sys2Proof.Machine.execDecode s
  | .capacity => Sys2Proof.Machine.execCapacity s
  | .xorapply => Sys2Proof.Machine.execXorapply s
  | .lowones => Sys2Proof.Machine.execLowones s
  | .highmask => Sys2Proof.Machine.execHighmask s
  | .idle => Sys2Proof.Machine.execIdle s
  | .eCheck => Sys2Proof.Machine.execECheck s
  | .ePro => Sys2Proof.Machine.execEPro s
  | .eLen => Sys2Proof.Machine.execELen s
  | .ePay => Sys2Proof.Machine.execEPay s
  | .dPro => Sys2Proof.Machine.execDPro s
  | .dLen => Sys2Proof.Machine.execDLen s
  | .dPay => Sys2Proof.Machine.execDPay s
  | .xRun => Sys2Proof.Machine.execXRun s
  | .qRun => Sys2Proof.Machine.execQRun s

end Sys2Proof.Machine
end

