-- ==== Sys2Proof/Machine/Sequencer.lean ====
section
/-! DEFINITION. The sequencer: it runs the instruction at `STATUS.PHASE`, and a command's phases to its end
(spec/10_state.md R24; spec/47_commands.md R200, R203). -/

namespace Sys2Proof.Machine

/-- The sequencer runs one phase: the instruction that the code in `STATUS.PHASE` decodes to. -/
def runPhase (s : State) : Host.Outcome State Fault Refusal :=
  match decode (.phase s.phase) with
  | .ok i => exec i s
  | .error _ => .refused (.reservedPhase s.phase)

/-- R200 "run phases until STATE is DONE or FAULT", at most `fuel` of them (no command has more than four, R203). -/
def runPhases : Nat → State → Host.Outcome State Fault Refusal
  | 0, s => .next s
  | fuel + 1, s =>
    if s.run = .busy then
      match runPhase s with
      | .next s' => runPhases fuel s'
      | .fault r => .fault r
      | .refused r => .refused r
    else .next s

/-- The most phases a command has (R203). -/
def maxPhases : Nat := 4

/-- The state in which the running command ends; `s` itself when none runs, or when the run stops. -/
def completed (s : State) : State :=
  match runPhases maxPhases s with
  | .next t => t
  | .fault _ => s
  | .refused _ => s

/-- R200 as a whole, for a command: it is started, then its phases run to its end. -/
def runCommand (i : Instr) (s : State) : Host.Outcome State Fault Refusal :=
  match exec i s with
  | .next t => runPhases maxPhases t
  | .fault r => .fault r
  | .refused r => .refused r

end Sys2Proof.Machine
end

