-- ==== Sys2Proof/Machine/HostPort.lean ====
section
/-! DEFINITION. The host's side: register writes and reads, accesses to the host's own memories, the reset input
(spec/10_state.md R21; spec/47_commands.md R200; spec/70_reset_and_hazards.md R260, R265, R266). -/

namespace Sys2Proof.Machine

/-- R200: a host write of `c` to register `CMD`. -/
def writeCommand (c : BitVec 8) (s : State) : Host.Outcome State Fault Refusal :=
  match decode (.cmd c) with
  | .ok i => exec i s
  | .error _ => illegalCommand c s

/-- A host write to an input register: "keeps the low bits of the value and ignores the rest" (R21). A read-only register
is written only by CORE (R21), so a host write leaves it (log entry 7). -/
def writeInput (n v : Nat) (s : State) : Host.Outcome State Fault Refusal :=
  match n with
  | 1 | 2 => .next s
  | 3 => .next { s with gridH := BitVec.ofNat 16 v }
  | 4 => .next { s with gridW := BitVec.ofNat 16 v }
  | 5 => .next { s with bwIn := BitVec.ofNat 4 v }
  | 6 => .next { s with keyCtl := BitVec.ofNat 1 v }
  | 7 => .next { s with keyLen := BitVec.ofNat 32 v }
  | 8 => .next { s with payLen := BitVec.ofNat 32 v }
  | 9 => .next { s with arg := BitVec.ofNat 4 v }
  | 10 | 11 | 12 | 13 | 14 => .next s
  | _ => .refused (.noSuchRegister n)

/-- `HostWrite(n, v)`: while `BUSY` it "changes nothing and raises nothing" (R265). -/
def hostWrite (n v : Nat) (s : State) : Host.Outcome State Fault Refusal :=
  if n > 14 then .refused (.noSuchRegister n)
  else if s.run = .busy then .next s
  else if n = 0 then writeCommand (BitVec.ofNat 8 v) s
  else writeInput n v s

/-- The value in register `n`, zero-extended to 64 bits; `CMD` reads as 0 (R21). Meant for `n <= 14`. -/
def registerValue (n : Nat) (s : State) : Option (BitVec 64) :=
  match n with
  | 0 => some 0#64
  | 1 => some ((statusWord s.run s.phase).setWidth 64)
  | 2 => some ((faultWord s.fault).setWidth 64)
  | 3 => some (s.gridH.setWidth 64)
  | 4 => some (s.gridW.setWidth 64)
  | 5 => some (s.bwIn.setWidth 64)
  | 6 => some (s.keyCtl.setWidth 64)
  | 7 => some (s.keyLen.setWidth 64)
  | 8 => some (s.payLen.setWidth 64)
  | 9 => some (s.arg.setWidth 64)
  | 10 => some s.result
  | 11 => some (s.lenOut.setWidth 64)
  | 12 => some (s.bwOut.setWidth 64)
  | 13 => some (s.obfOut.setWidth 64)
  | 14 => some (s.cur.setWidth 64)
  | _ => none

/-- The phases of the command that is running, in the order of R203, told from any one of them. -/
def phasesOf (p : BitVec 4) : List (BitVec 4) :=
  match p.toNat with
  | 1 | 2 | 3 | 4 => [Phase.eCheck, Phase.ePro, Phase.eLen, Phase.ePay]
  | 5 | 6 | 7 => [Phase.dPro, Phase.dLen, Phase.dPay]
  | 8 => [Phase.xRun]
  | 9 => [Phase.qRun]
  | _ => []

/-- R265, U10: the `PHASE` read while `BUSY` is unconstrained: `IDLE` (its value before the first phase and after the
last) or any phase of the running command, by the free draw `d`. Log entry 4. -/
def drawPhase (d : Nat) (s : State) : BitVec 4 :=
  (Phase.idle :: phasesOf s.phase).getD (d % ((phasesOf s.phase).length + 1)) Phase.idle

/-- R265, U10: the `CUR` read while `BUSY` is unconstrained between 0 and its final value, by the free draw `d`. Log entry 4. -/
def drawCursor (d : Nat) (s : State) : BitVec 34 :=
  BitVec.ofNat 34 (d % ((completed s).cur.toNat + 1))

/-- `HostRead(n)`: the answer stands in `readData`. While `BUSY` the fields `STATUS.PHASE` and `CUR` are drawn (R265). -/
def hostRead (n : Nat) (s : State) : Host.Outcome State Fault Refusal :=
  if s.run = .busy ∧ n = 1 then
    .next { s with readData := (statusWord s.run (drawPhase (Config.freeDraw s.draws) s)).setWidth 64, draws := s.draws + 1 }
  else if s.run = .busy ∧ n = 14 then
    .next { s with readData := (drawCursor (Config.freeDraw s.draws) s).setWidth 64, draws := s.draws + 1 }
  else
    match registerValue n s with
    | some x => .next { s with readData := x }
    | none => .refused (.noSuchRegister n)

/-- The host stores a byte into its own storage; while `BUSY` this is refused (R266). -/
def hostStore (sp : Space) (a : Nat) (b : Byte) (s : State) : Host.Outcome State Fault Refusal :=
  if s.run = .busy then .refused .hostMemoryWhileBusy else .next (s.setMemory sp ((s.memory sp).write a b))

/-- The host reads a byte of its own storage; while `BUSY` this is refused (R266). -/
def hostLoad (sp : Space) (a : Nat) (s : State) : Host.Outcome State Fault Refusal :=
  if s.run = .busy then .refused .hostMemoryWhileBusy
  else .next { s with readData := ((s.memory sp).read a).setWidth 64 }

/-- How many cells of `GRID` a running command has passed when the reset input cuts it: at least those its finished
phases consumed and at most those it would consume, by the free draw `d` (U11). Log entry 5. -/
def cutAt (d : Nat) (s : State) : Nat :=
  s.cur.toNat + d % ((completed s).cur.toNat - s.cur.toNat + 1)

/-- `GRID` after the reset input: untouched when no command runs; else a prefix has been rewritten (R260, U11). -/
def gridAtReset (s : State) : Memory :=
  if s.run = .busy then
    Memory.blend (fun k => decide (k < cutAt (Config.freeDraw s.draws) s)) (completed s).grid s.grid
  else s.grid

/-- `PAY` after the reset input: untouched when no command runs; else each byte the command was to store has been stored
or not. Log entry 5. -/
def payAtReset (s : State) : Memory :=
  if s.run = .busy then Memory.blend (Config.freeLanded s.draws) (completed s).pay s.pay else s.pay

/-- The reset input (R29, R260, R261): every register becomes 0; `KEY` is never written (R60). -/
def resetInput (s : State) : State :=
  { State.reset with
    grid := gridAtReset s, pay := payAtReset s, key := s.key, host := s.host, readData := s.readData,
    draws := if s.run = .busy then s.draws + 1 else s.draws }

/-- One host action, already taken from the list; `wait` has its own rule in the step. -/
def hostAct (a : HostAction) (s : State) : Host.Outcome State Fault Refusal :=
  match a with
  | .write n v => hostWrite n v s
  | .read n => hostRead n s
  | .store sp k b => hostStore sp k b s
  | .load sp k => hostLoad sp k s
  | .wait => .next s
  | .advance => runPhase s
  | .reset => .next (resetInput s)

/-- One step of CORE and its host. With no host action pending the sequencer runs (R24). A `wait` lets it run while
`BUSY` and ends when `STATE != BUSY` (R105). Any other action is the host's turn (log entry 1). -/
def stepMachine (s : State) : Host.Outcome State Fault Refusal :=
  match s.host with
  | [] => runPhase s
  | .wait :: rest => if s.run = .busy then runPhase s else .next { s with host := rest }
  | a :: rest => hostAct a { s with host := rest }

/-- `CMD` is one of the three commands whose phase is `Q.RUN` (R203). -/
def isQuery (c : BitVec 8) : Bool := c == 0x03#8 || c == 0x05#8 || c == 0x06#8

/-- `s` with the phase code `p` where the sequencer takes its next instruction. Every phase but `IDLE` runs while `BUSY`.
A phase after a check takes a validated `BW` (R23) and `Q.RUN` an issued query (R203): one is put there where `s` has
none (log entry 10). -/
def placePhase (p : BitVec 4) (s : State) : State :=
  { s with
    host := [], phase := p, run := if p = Phase.idle then (if s.run = .busy then .idle else s.run) else .busy,
    bw := if (legalWidth s.bw).isNone ∧ (p = Phase.eLen ∨ p = Phase.ePay ∨ p = Phase.dLen ∨ p = Phase.dPay) then 1#4 else s.bw,
    cmd := if p = Phase.qRun ∧ isQuery s.cmd = false then 0x03#8 else s.cmd }

/-- `s` with the host about to write `c` to `CMD`, and no command running. -/
def placeCommand (c : BitVec 8) (s : State) : State :=
  { s with
    host := .write 0 c.toNat :: s.host, run := if s.run = .busy then .idle else s.run,
    phase := if s.run = .busy then Phase.idle else s.phase }

end Sys2Proof.Machine
end

