-- ==== Sys2Proof/Machine/Step.lean ====
section
/-! DEFINITION. The step, and where an instruction is placed for the next step to run it. -/

namespace Sys2Proof.Machine

/-- One step. -/
def step (s : State) : Host.Outcome State Fault Refusal := stepMachine s

/-- `s` with the instruction whose table word is `w` placed where the next step takes it: a command in the host's next
write to `CMD`, a phase in `STATUS.PHASE` (log entry 10). -/
def State.withFetchWord (s : State) (nbits w : Nat) : State :=
  match tableWord nbits w with
  | some (.cmd c) => placeCommand c s
  | some (.phase p) => placePhase p s
  | none => s

end Sys2Proof.Machine
end

