-- ==== Sys2Proof/Safety.lean ====
section
/-! DEFINITION. What a safe state is, and the terms the claims use: the machine's invariant, and the closed forms that
spec/47_commands.md R205 and R206 write the grid's contents with. -/

namespace Sys2Proof.Machine

/-! ### The invariant -/

/-- The three memories are in canonical form. -/
def State.memoriesWf (s : State) : Bool := s.grid.wf && s.pay.wf && s.key.wf

/-- R28: the output registers `RESULT`, `LEN_OUT`, `BW_OUT`, `OBF_OUT` hold 0. -/
def State.outputsClear (s : State) : Bool :=
  s.result == 0#64 && s.lenOut == 0#32 && s.bwOut == 0#4 && s.obfOut == 0#3

/-- What `E.CHECK` has established for the later phases of `ENCODE` (R204). -/
def State.encodeReady (s : State) : Bool :=
  match legalWidth s.bw with
  | none => false
  | some bw =>
    s.bw == s.bwIn && s.len == s.payLen && s.keyok == s.keyPresent && (!s.keyok || s.keyFilled)
      && decide ((s.payLen.toNat : Int) ≤ available s.gridSize bw.val)

/-- What `D.PRO` has established for the later phases of `DECODE` (R173). -/
def State.decodeReady (s : State) : Bool :=
  (legalWidth s.bw).isSome && (!s.keyok || s.keyUsable) && s.obf == flagOf s.keyok

/-- Where the header ends: `6 + LC(BW)` (R170). -/
def State.headerEnd (s : State) : Nat := Config.prologueCells + lengthChunks s.bw.toNat

/-- What holds while `BUSY`, by the phase about to run (R170, R203, R204, R173, R177). -/
def State.phaseInv (s : State) : Bool :=
  match s.phase.toNat with
  | 1 => s.cur.toNat == 0
  | 2 => s.cur.toNat == 0 && s.encodeReady
  | 3 => s.cur.toNat == Config.prologueCells && s.encodeReady && s.obf == flagOf s.keyok
  | 4 => s.cur.toNat == s.headerEnd && s.encodeReady && s.obf == flagOf s.keyok
  | 5 => s.cur.toNat == 0
  | 6 => s.cur.toNat == Config.prologueCells && s.decodeReady
  | 7 => s.cur.toNat == s.headerEnd && s.decodeReady
      && decide (s.headerEnd + payloadChunks s.len.toNat s.bw.toNat ≤ s.gridSize)
  | 8 => s.cur.toNat == 0
  | 9 => s.cur.toNat == 0 && isQuery s.cmd
  | _ => false

/-- What holds by `STATUS.STATE` (R22, R24, R28, R231, R233). -/
def State.runInv (s : State) : Bool :=
  match s.run with
  | .idle => s.phase == Phase.idle && s.fault == none && s.outputsClear
  | .busy => s.fault == none && s.outputsClear && s.phaseInv
  | .done => s.phase == Phase.idle && s.fault == none
      && decide (s.bwOut.toNat ≤ Config.maxWidth) && (s.obfOut == Config.obfOn || s.obfOut == Config.obfOff)
  | .fault => s.phase == Phase.idle && s.fault != none && s.fault != some .invalidImage && s.outputsClear

/-- The machine's invariant. -/
def State.inv (s : State) : Bool := s.memoriesWf && s.runInv

/-! ### Terms of the claims -/

/-- The six commands (R91). -/
def isCommand : Instr → Bool
  | .encode | .decode | .capacity | .xorapply | .lowones | .highmask => true
  | .idle | .eCheck | .ePro | .eLen | .ePay | .dPro | .dLen | .dPay | .xRun | .qRun => false

/-- `s` after R27, with the command word kept (log entry 6) and the command's first phase selected (R200): written out,
register by register. -/
def State.started (s : State) (c : BitVec 8) (first : BitVec 4) : State :=
  { s with
    run := .busy, fault := none, result := 0#64, lenOut := 0#32, bwOut := 0#4, obfOut := 0#3, cur := 0#34, bw := 0#4,
    obf := 0#3, pro := 0#6, len := 0#32, v := 0, nc := 0#36, ci := 0#36, keyok := false, cmd := c, phase := first }

/-- `s` after a failure of kind `f` (R242): `FAULT`, `PHASE` and `STATE`, and nothing else. -/
def State.failed (s : State) (f : Failure) : State := { s with fault := some f, phase := 0#4, run := .fault }

/-- A piece of pseudocode reaches its end. -/
def Eff.goesOn {α : Type} : Eff α → Bool
  | .ok _ _ => true
  | .raise _ _ => false
  | .stop _ => false

/-- A piece of pseudocode ends by raising the failure `f` (R230). -/
def Eff.raises {α : Type} (f : Failure) : Eff α → Bool
  | .ok _ _ => false
  | .raise g _ => decide (g = f)
  | .stop _ => false

/-- The failure kinds a command can end with (R231, R241). -/
def failureKinds : Instr → List Failure
  | .encode => [.invalidBitWidth, .invalidKey, .payloadTooLarge]
  | .decode => [.cursorExhausted, .corruptHeader, .invalidBitWidth, .missingKey, .invalidKey]
  | .capacity => [.invalidBitWidth]
  | .xorapply => [.invalidKey]
  | .lowones | .highmask => [.maskRange]
  | .idle | .eCheck | .ePro | .eLen | .ePay | .dPro | .dLen | .dPay | .xRun | .qRun => []

/-- Chunk `i` of a value, `(val >> (i * bw)) mod 2^bw` (R162). -/
def chunk (val bw i : Nat) : Nat := val / 2 ^ (i * bw) % 2 ^ bw

/-- A cell value `old` with its low `bw` bits replaced by `c` (R94: `KEEP` above, `CHUNK` below). -/
def replaceLow (old : Byte) (bw c : Nat) : Nat := old.toNat / 2 ^ bw * 2 ^ bw + c

/-- The value that the low `bw` bits of `n` cells from `base` stand for: the sum of R100 and R206. -/
def gridValue (g : Memory) (base n bw : Nat) : Nat :=
  ((List.range n).map fun i => (g.read (base + i)).toNat % 2 ^ bw * 2 ^ (i * bw)).sum

/-- R204's three conditions: an `ENCODE` of `s` is accepted. -/
def State.encodable (s : State) : Prop :=
  1 ≤ s.bwIn.toNat ∧ s.bwIn.toNat ≤ 7 ∧ (s.keyPresent = true → s.keyLen ≠ 0#32) ∧
    (s.payLen.toNat : Int) ≤ available s.gridSize s.bwIn.toNat

/-- `P` of R205: the prologue an `ENCODE` of `s` writes. -/
def State.prologueIn (s : State) : Nat := (if s.keyPresent then 7 else 0) * 8 + s.bwIn.toNat

/-- `D` of R186 and R205: payload byte `i` on its way into the grid, transformed when `masked`. -/
def State.payloadIn (s : State) (masked : Bool) (i : Nat) : Byte :=
  if masked then s.pay.read i ^^^ s.key.read (i % s.keyLen.toNat) else s.pay.read i

/-- `val` of R187 and R205: `ToInt(D)` as the sum of R185. -/
def State.payloadValue (s : State) (masked : Bool) (size : Nat) : Nat :=
  ((List.range size).map fun i => (s.payloadIn masked i).toNat * 2 ^ (8 * (size - 1 - i))).sum

/-- Byte `i` of the buffer a decoder stores for the payload integer `val` (R189, R206). -/
def State.payloadOut (s : State) (masked : Bool) (val size i : Nat) : Byte :=
  let b := BitVec.ofNat 8 (val / 2 ^ (8 * (size - 1 - i)))
  if masked then b ^^^ s.key.read (i % s.keyLen.toNat) else b

/-- `P` of R206: the prologue the grid of `s` holds. -/
def State.prologueFound (s : State) : Nat := gridValue s.grid 0 6 1

/-- `obf` of R206, as a number. -/
def State.obfFound (s : State) : Nat := s.prologueFound / 8

/-- `bw` of R206. -/
def State.widthFound (s : State) : Nat := s.prologueFound % 8

/-- `size` of R206. -/
def State.sizeFound (s : State) : Nat :=
  gridValue s.grid 6 (lengthChunks s.widthFound) s.widthFound % 2 ^ 32

/-- The payload integer of the grid of `s`, before R206's reduction to the field's width. -/
def State.payloadFound (s : State) : Nat :=
  gridValue s.grid (6 + lengthChunks s.widthFound) (payloadChunks s.sizeFound s.widthFound) s.widthFound

/-- The conditions under which a `DECODE` of `s` reaches `DONE`: none of the failures of R241 applies. -/
def State.decodable (s : State) : Prop :=
  6 ≤ s.gridSize ∧ (s.obfFound = 0 ∨ s.obfFound = 7) ∧ 1 ≤ s.widthFound ∧
    (s.obfFound = 7 → s.keyPresent = true ∧ s.keyLen ≠ 0#32) ∧
    6 + lengthChunks s.widthFound + payloadChunks s.sizeFound s.widthFound ≤ s.gridSize

end Sys2Proof.Machine
end

