-- ==== Sys2Proof/Certificates/Slice0/Obligations.lean ====
section
/-! DEFINITION. The statements for the provers, each `def Obligations.<Name> : Prop`. A docstring names the rule of spec/ a
statement follows; where a clause rests on a choice of the model it names the log entry. -/

open Sys2Proof Sys2Proof.Machine

/-! ## Encoding -/

/-- R91, R92 with spec/opcode_table.json: an instruction's word decodes to it, and a word that decodes to an instruction is
that instruction's word, so no two words decode alike. -/
def Obligations.DecodeAndEncodeAgree : Prop :=
  (∀ i : Instr, decode (encode i) = .ok i) ∧
    (∀ (w : InstrWord) (i : Instr), decode w = .ok i → encode i = w)

/-- The sixteen words of spec/opcode_table.json, bit by bit, decode to their rows' instructions (R91, R24). -/
def Obligations.TableWordsDecode : Prop :=
  decode (.cmd 0b00000001#8) = .ok .encode ∧ decode (.cmd 0b00000010#8) = .ok .decode ∧
  decode (.cmd 0b00000011#8) = .ok .capacity ∧ decode (.cmd 0b00000100#8) = .ok .xorapply ∧
  decode (.cmd 0b00000101#8) = .ok .lowones ∧ decode (.cmd 0b00000110#8) = .ok .highmask ∧
  decode (.phase 0b0000#4) = .ok .idle ∧ decode (.phase 0b0001#4) = .ok .eCheck ∧
  decode (.phase 0b0010#4) = .ok .ePro ∧ decode (.phase 0b0011#4) = .ok .eLen ∧
  decode (.phase 0b0100#4) = .ok .ePay ∧ decode (.phase 0b0101#4) = .ok .dPro ∧
  decode (.phase 0b0110#4) = .ok .dLen ∧ decode (.phase 0b0111#4) = .ok .dPay ∧
  decode (.phase 0b1000#4) = .ok .xRun ∧ decode (.phase 0b1001#4) = .ok .qRun

/-- R101 (with the low 8 bits of R21): a value with `RSV != 0`, or with `OPC` 0 or 7 .. 15, selects no command. Written by the host to
`CMD` while no command runs it performs R27 and ends at once with `STATE = FAULT`, `FAULT = IllegalCommand`, and touches no
memory; what `CMD` then holds is left to `CmdKeepsAcceptedWrite`. Every other value selects a command, which the write runs: there
are no hint encodings and no custom command space. -/
def Obligations.UnassignedCommandFails : Prop :=
  ∀ v : Nat,
    let c := BitVec.ofNat 8 v
    (c.toNat / 16 ≠ 0 ∨ c.toNat % 16 = 0 ∨ 7 ≤ c.toNat % 16 →
      (∀ i : Instr, decode (.cmd c) ≠ .ok i) ∧
      ∀ s : State, s.run ≠ .busy →
        ∃ t, hostWrite 0 v s = .next t ∧ t = (s.started t.cmd 0#4).failed .illegalCommand) ∧
    (c.toNat / 16 = 0 → 1 ≤ c.toNat % 16 → c.toNat % 16 ≤ 6 →
      ∃ i : Instr, isCommand i = true ∧ decode (.cmd c) = .ok i ∧ ∀ s : State, hostWrite 0 v s = exec i s)

/-! ## The host port -/

/-- R27 (with R200 and the table of R203): an accepted `CMD` write of a command sets `STATE` to `BUSY`, clears `FAULT`, the
output registers, `CUR` and the internal registers, selects the command's first phase, and changes nothing else but `CMD`. That
`CMD` then holds the command is the model's own: its log entry 6, no rule. -/
def Obligations.CommandStartsCleared : Prop :=
  ∀ s : State, s.run ≠ .busy →
    exec .encode s = .next (s.started 0x01#8 1#4) ∧ exec .decode s = .next (s.started 0x02#8 5#4) ∧
    exec .capacity s = .next (s.started 0x03#8 9#4) ∧ exec .xorapply s = .next (s.started 0x04#8 8#4) ∧
    exec .lowones s = .next (s.started 0x05#8 9#4) ∧ exec .highmask s = .next (s.started 0x06#8 9#4) ∧
    ∀ (c : BitVec 8) (i : Instr), decode (.cmd c) = .ok i → writeCommand c s = exec i s

/-- R265, R200: while `BUSY` a host write to any register changes nothing and raises nothing. -/
def Obligations.WritesWhileBusyIgnored : Prop :=
  ∀ (s : State) (n v : Nat), s.run = .busy → n ≤ 14 →
    hostWrite n v s = .next s ∧ ∀ i : Instr, isCommand i = true → exec i s = .next s

/-- R265 and U10, with the model's log entry 4: while `BUSY` a read answers the current value, but `STATUS.PHASE` is `IDLE` or any
phase of the running command and `CUR` any value up to its final one. A read changes nothing but the model's own `readData`
and `draws`. What a read answers while no command runs is `ReadsAtRestAnswerRegisters`. -/
def Obligations.ReadsWhileBusy : Prop :=
  ∀ s : State, s.run = .busy →
    (∀ n : Nat, n ≤ 14 → n ≠ 1 → n ≠ 14 →
      ∃ x, registerValue n s = some x ∧ hostRead n s = .next { s with readData := x }) ∧
    (∃ p ∈ Phase.idle :: phasesOf s.phase,
      hostRead 1 s = .next { s with readData := (statusWord .busy p).setWidth 64, draws := s.draws + 1 }) ∧
    ∃ k ≤ (completed s).cur.toNat, hostRead 14 s = .next { s with readData := BitVec.ofNat 64 k, draws := s.draws + 1 }

/-- R21: a host write to an input register "keeps the low bits of the value and ignores the rest"; the register then reads
back so, every other register reads as before, and nothing but the input registers has changed. -/
def Obligations.InputRegisterKeepsLowBits : Prop :=
  ∀ p ∈ [(3, 16), (4, 16), (5, 4), (6, 1), (7, 32), (8, 32), (9, 4)], ∀ (v : Nat) (s : State), s.run ≠ .busy →
    ∃ t, hostWrite p.1 v s = .next t ∧ registerValue p.1 t = some (BitVec.ofNat 64 (v % 2 ^ p.2)) ∧
      (∀ m : Nat, m ≠ p.1 → registerValue m t = registerValue m s) ∧
      { t with
        gridH := s.gridH, gridW := s.gridW, bwIn := s.bwIn, keyCtl := s.keyCtl, keyLen := s.keyLen, payLen := s.payLen,
        arg := s.arg } = s

/-- R21 gives the read-only registers 1, 2 and 10 .. 14 to CORE alone to write. That a host write to one is ignored is the
model's log entry 7; that a number above 14 is refused, in every state, is its log entry 8. -/
def Obligations.OtherRegisterNumbers : Prop :=
  ∀ (s : State) (v : Nat),
    (s.run ≠ .busy → ∀ n ∈ [1, 2, 10, 11, 12, 13, 14], hostWrite n v s = .next s) ∧
    (∀ n : Nat, 14 < n → hostWrite n v s = .refused (.noSuchRegister n) ∧ hostRead n s = .refused (.noSuchRegister n))

/-- R93 (with the codes of R22 and R231): `STATUS` has `STATE` in [1:0], `PHASE` in [5:2] and zeros above; `FAULT` has the failure
kind's code in [3:0] and zeros above; bit 0 of `KEY_CTL` is `KEY_PRESENT`. -/
def Obligations.StatusRegisterLayout : Prop :=
  ∀ s : State,
    (∃ x, registerValue 1 s = some x ∧ x.toNat / 4 % 16 = s.phase.toNat ∧ x.toNat / 64 = 0 ∧
      (∀ p ∈ [(RunState.idle, 0), (RunState.busy, 1), (RunState.done, 2), (RunState.fault, 3)],
        s.run = p.1 → x.toNat % 4 = p.2)) ∧
    (∃ x, registerValue 2 s = some x ∧
      (∀ p ∈ [(none, 0), (some Failure.invalidImage, 1), (some .corruptHeader, 2), (some .invalidBitWidth, 3),
          (some .missingKey, 4), (some .invalidKey, 5), (some .payloadTooLarge, 6), (some .cursorExhausted, 7),
          (some .maskRange, 8), (some .illegalCommand, 9)],
        s.fault = p.1 → x.toNat = p.2)) ∧
    (s.keyPresent = true ↔ s.keyCtl.toNat = 1)

/-- R29, R261: the reset input sets every register of R21 and R23 to 0 and initialises no memory; the state after reset has every
register 0 and a `BW_IN` that is no legal BitWidth. -/
def Obligations.ResetClearsRegisters : Prop :=
  (∀ t : State, (t = State.reset ∨ ∃ s, t = resetInput s) →
    (∀ n : Nat, n ≤ 14 → registerValue n t = some 0#64) ∧ t.run = .idle ∧ t.phase = 0#4 ∧ t.fault = none ∧ t.cmd = 0#8 ∧
    t.bw = 0#4 ∧ t.obf = 0#3 ∧ t.pro = 0#6 ∧ t.len = 0#32 ∧ t.v = 0 ∧ t.nc = 0#36 ∧ t.ci = 0#36 ∧ t.keyok = false) ∧
  (∀ s : State, (resetInput s).key = s.key ∧
    (s.run ≠ .busy → (resetInput s).grid = s.grid ∧ (resetInput s).pay = s.pay)) ∧
  legalWidth State.reset.bwIn = none

/-- R260 and U11, with the model's log entry 5: a reset while a command runs leaves `GRID` with a prefix of the cells as the
command would have left them and the rest as they were, and each byte of `PAY` as the command would have left it or as it
was. -/
def Obligations.ResetLeavesPrefix : Prop :=
  ∀ s : State, s.inv = true → s.run = .busy →
    (∃ j, s.cur.toNat ≤ j ∧ j ≤ (completed s).cur.toNat ∧
      ∀ k, (resetInput s).grid.read k = if k < j then (completed s).grid.read k else s.grid.read k) ∧
    ∀ k, (resetInput s).pay.read k = (completed s).pay.read k ∨ (resetInput s).pay.read k = s.pay.read k

/-- R60, R71: while no command runs the host's store to its own storage reads back, and every other byte of the three spaces
and every register is unchanged. -/
def Obligations.HostStoreReadsBack : Prop :=
  ∀ (s : State) (sp : Space) (a : Nat) (b : Byte), s.run ≠ .busy → s.memoriesWf = true →
    ∃ t, hostStore sp a b s = .next t ∧ t.memoriesWf = true ∧ { t with grid := s.grid, pay := s.pay, key := s.key } = s ∧
      hostLoad sp a t = .next { t with readData := b.setWidth 64 } ∧
      ∀ sp' a', (sp' ≠ sp ∨ a' ≠ a) → (t.memory sp').read a' = (s.memory sp').read a'

/-- R266: a host access to a memory while `BUSY` has no meaning; the model refuses it. -/
def Obligations.HostMemoryAccessWhileBusyRefused : Prop :=
  ∀ (s : State) (sp : Space) (a : Nat) (b : Byte), s.run = .busy →
    hostStore sp a b s = .refused .hostMemoryWhileBusy ∧ hostLoad sp a s = .refused .hostMemoryWhileBusy

/-! ## BitMask -/

/-- R121 (with R120): the two masks as numbers and bit by bit, and the two laws of R121. -/
def Obligations.MaskValues : Prop :=
  ∀ n : Fin 9,
    (lowOnes n).toNat = 2 ^ n.val - 1 ∧ (highMask n).toNat = 256 - 2 ^ n.val ∧ highMask n = lowOnes 8 ^^^ lowOnes n ∧
    (∀ j : Fin 8, (highMask n).getLsbD j.val = decide (n.val ≤ j.val)) ∧
    lowOnes n &&& highMask n = 0x00#8 ∧ lowOnes n ||| highMask n = 0xFF#8

/-- R123 `LOWONES`: from the command's start, `RESULT` is `2^ARG - 1` for `ARG <= 8`, and `ARG` 9 .. 15 fails with `MaskRange` and
leaves `RESULT` as the start cleared it. No memory is touched and `CUR` is unchanged. That `CMD = 0x05` is what the issue leaves
and what tells `Q.RUN` its command is the model's log entry 6. -/
def Obligations.LowonesResult : Prop :=
  (∀ s : State, s.run ≠ .busy → exec .lowones s = .next (s.started 0x05#8 9#4)) ∧
  ∀ s : State, s.cmd = 0x05#8 →
    exec .qRun s = .next
      (if s.arg.toNat ≤ 8 then { s with result := BitVec.ofNat 64 (2 ^ s.arg.toNat - 1), phase := 0#4, run := .done }
       else s.failed .maskRange)

/-- R124 `HIGHMASK`: as R123 with `256 - 2^ARG`, zero-extended; `CMD = 0x06` is the model's log entry 6. -/
def Obligations.HighmaskResult : Prop :=
  (∀ s : State, s.run ≠ .busy → exec .highmask s = .next (s.started 0x06#8 9#4)) ∧
  ∀ s : State, s.cmd = 0x06#8 →
    exec .qRun s = .next
      (if s.arg.toNat ≤ 8 then { s with result := BitVec.ofNat 64 (256 - 2 ^ s.arg.toNat), phase := 0#4, run := .done }
       else s.failed .maskRange)

/-! ## CapacityPlanner -/

/-- R150: `Available(N, bw) + 5` is the floor, toward minus infinity, of `(N - 6) * bw / 8`. -/
def Obligations.AvailableIsFloor : Prop :=
  ∀ N bw : Nat, 1 ≤ bw → bw ≤ 7 →
    8 * (available N bw + 5) ≤ ((N : Int) - 6) * bw ∧ ((N : Int) - 6) * bw < 8 * (available N bw + 5) + 8

/-- R152: a payload that passes the capacity check fits the grid behind the header. -/
def Obligations.CapacityCheckSuffices : Prop :=
  ∀ N size bw : Nat, 1 ≤ bw → bw ≤ 8 → (size : Int) ≤ available N bw →
    6 + lengthChunks bw + payloadChunks size bw ≤ N

/-- R153 `CAPACITY`: `RESULT`, read as a signed number, is `Available(N, BW_IN)`, and a `BW_IN` of 0 or 8 .. 15 fails with
`InvalidBitWidth`. No memory is touched and `CUR` is unchanged. `CMD = 0x03` is the model's log entry 6. -/
def Obligations.CapacityResult : Prop :=
  (∀ s : State, s.run ≠ .busy → exec .capacity s = .next (s.started 0x03#8 9#4)) ∧
  ∀ s : State, s.cmd = 0x03#8 →
    (1 ≤ s.bwIn.toNat → s.bwIn.toNat ≤ 7 →
      ∃ r : BitVec 64, exec .qRun s = .next { s with result := r, phase := 0#4, run := .done } ∧
        r.toInt = Int.fdiv (((s.gridH.toNat * s.gridW.toNat * 3 : Nat) - 6 : Int) * s.bwIn.toNat) 8 - 5) ∧
    (s.bwIn.toNat < 1 ∨ 7 < s.bwIn.toNat → exec .qRun s = .next (s.failed .invalidBitWidth))

/-- R154: with a legal width and no empty key, `ENCODE` fails with `PayloadTooLarge` exactly when `PAY_LEN` is above `Available`, and
then the grid is untouched; at exactly `Available` bytes, and below, it succeeds. -/
def Obligations.CapacityBoundary : Prop :=
  ∀ s : State, s.run ≠ .busy → 1 ≤ s.bwIn.toNat → s.bwIn.toNat ≤ 7 → (s.keyPresent = true → s.keyLen ≠ 0#32) →
    ∃ t, runCommand .encode s = .next t ∧
      ((s.payLen.toNat : Int) > available s.gridSize s.bwIn.toNat →
        t.run = .fault ∧ t.fault = some .payloadTooLarge ∧ t.grid = s.grid) ∧
      ((s.payLen.toNat : Int) ≤ available s.gridSize s.bwIn.toNat → t.run = .done ∧ t.fault = none)

/-! ## PixelCursor and the packer -/

/-- R62: the linear index and the position `(row, col, ch)` of a cell determine each other, and the positions of the grid are
the indices below `N`. -/
def Obligations.CellPositions : Prop :=
  ∀ h w : Nat, 0 < w →
    (∀ row col ch, row < h → col < w → ch < 3 →
      linearIndex w row col ch < h * w * 3 ∧ positionOf w (linearIndex w row col ch) = (row, col, ch)) ∧
    (∀ k, k < h * w * 3 →
      linearIndex w (positionOf w k).1 (positionOf w k).2.1 (positionOf w k).2.2 = k ∧
      (positionOf w k).1 < h ∧ (positionOf w k).2.1 < w ∧ (positionOf w k).2.2 < 3)

/-- R132 `Next()`: it yields the cell at `CUR` and moves `CUR` on by one, or raises `CursorExhausted` with nothing changed. -/
def Obligations.NextYieldsOrExhausts : Prop :=
  ∀ s : State,
    (s.cur.toNat < s.gridSize → ∃ t, next s = .ok (s.cur.toNat, s.grid.read s.cur.toNat) t ∧
      t = { s with cur := t.cur } ∧ t.cur.toNat = s.cur.toNat + 1) ∧
    (s.gridSize ≤ s.cur.toNat → next s = .raise .cursorExhausted s)

/-- R160 `PutChunk(c, bw)`: the cell at `CUR` keeps its bits `[7:bw]` and takes the low `bw` bits of `c`; every other cell is
unchanged; `CUR` moves on by one. At the end of the grid nothing is written. -/
def Obligations.PutChunkKeepsHighBits : Prop :=
  ∀ (c : Nat) (bw : Fin 9) (s : State), 1 ≤ bw.val → bw.val ≤ 7 → s.grid.wf = true →
    (s.cur.toNat < s.gridSize → ∃ t, putChunk c bw s = .ok () t ∧
      t = { s with grid := t.grid, cur := BitVec.ofNat 34 (s.cur.toNat + 1) } ∧
      (∀ j, j < 8 → (t.grid.read s.cur.toNat).getLsbD j =
        if j < bw.val then c.testBit j else (s.grid.read s.cur.toNat).getLsbD j) ∧
      ∀ k, k ≠ s.cur.toNat → t.grid.read k = s.grid.read k) ∧
    (s.gridSize ≤ s.cur.toNat → putChunk c bw s = .raise .cursorExhausted s)

/-- R161 `GetChunk(bw)`: the low `bw` bits of the cell at `CUR`; the high bits do not matter; no memory is written. -/
def Obligations.GetChunkReadsLowBits : Prop :=
  ∀ (bw : Fin 9) (s : State), 1 ≤ bw.val → bw.val ≤ 7 →
    (s.cur.toNat < s.gridSize → ∃ c, getChunk bw s = .ok c { s with cur := BitVec.ofNat 34 (s.cur.toNat + 1) } ∧
      c = (s.grid.read s.cur.toNat).toNat % 2 ^ bw.val ∧ c < 2 ^ bw.val) ∧
    (s.gridSize ≤ s.cur.toNat → getChunk bw s = .raise .cursorExhausted s)

/-- R162 `Pack(val, n, bw)`: chunk `i` of `val` goes into the low bits of cell `CUR + i`, every other bit of `GRID` is unchanged,
`CUR` moves on by `n` and `V` is what is left of `val`. A cell that is missing raises `CursorExhausted`. -/
def Obligations.PackLaysOutChunks : Prop :=
  ∀ (val n : Nat) (bw : Fin 9) (s : State), 1 ≤ bw.val → bw.val ≤ 7 → s.grid.wf = true →
    (s.cur.toNat + n ≤ s.gridSize → ∃ t, pack val n bw s = .ok () t ∧
      t = { s with
        v := val / 2 ^ (n * bw.val), nc := BitVec.ofNat 36 n, ci := BitVec.ofNat 36 n,
        cur := BitVec.ofNat 34 (s.cur.toNat + n), grid := t.grid } ∧
      t.grid.wf = true ∧ t.cur.toNat = s.cur.toNat + n ∧
      ∀ k, (t.grid.read k).toNat =
        if s.cur.toNat ≤ k ∧ k < s.cur.toNat + n then replaceLow (s.grid.read k) bw.val (chunk val bw.val (k - s.cur.toNat))
        else (s.grid.read k).toNat) ∧
    (s.gridSize < s.cur.toNat + n → 1 ≤ n → ∃ t, pack val n bw s = .raise .cursorExhausted t)

/-- R164 `Unpack(n, bw)`: bit `i * bw + j` of the result is bit `j` of cell `CUR + i`, for `i < n` and `j < bw`, and no other bit
is set; no memory is written; `CUR` moves on by `n`. A cell that is missing raises `CursorExhausted`. -/
def Obligations.UnpackAccumulatesChunks : Prop :=
  ∀ (n : Nat) (bw : Fin 9) (s : State), 1 ≤ bw.val → bw.val ≤ 7 →
    (s.cur.toNat + n ≤ s.gridSize → ∃ x, unpack n bw s = .ok x { s with
        v := x, nc := BitVec.ofNat 36 n, ci := BitVec.ofNat 36 n, cur := BitVec.ofNat 34 (s.cur.toNat + n) } ∧
      x < 2 ^ (n * bw.val) ∧
      ∀ i j, i < n → j < bw.val → x.testBit (i * bw.val + j) = (s.grid.read (s.cur.toNat + i)).getLsbD j) ∧
    (s.gridSize < s.cur.toNat + n → 1 ≤ n → ∃ t, unpack n bw s = .raise .cursorExhausted t)

/-- R165, the inverse law: `Unpack` from where `Pack` began gives the packed value back. -/
def Obligations.UnpackInvertsPack : Prop :=
  ∀ (val n : Nat) (bw : Fin 9) (s : State), 1 ≤ bw.val → bw.val ≤ 7 → s.grid.wf = true →
    val < 2 ^ (n * bw.val) → s.cur.toNat + n ≤ s.gridSize →
    ∃ t u, pack val n bw s = .ok () t ∧ unpack n bw { t with cur := s.cur } = .ok val u ∧ u.grid = t.grid

/-- R167 `NeedRoom(n)`: it raises `CursorExhausted`, with the state as it was, exactly when the `n` calls of `Next()` that follow
would have raised at some point; else it changes nothing. -/
def Obligations.NeedRoomForesees : Prop :=
  ∀ (n : Nat) (bw : Fin 9) (s : State), s.cur.toNat ≤ s.gridSize →
    needRoom n s = (if s.gridSize - s.cur.toNat < n then .raise .cursorExhausted s else .ok () s) ∧
    (needRoom n s = .raise .cursorExhausted s ↔ ∃ t, unpack n bw s = .raise .cursorExhausted t)

/-! ## The phases of ENCODE -/

/-- R204 `E.CHECK`: the three checks in their order, each before any access to a memory; then `BW`, `LEN` and `KEYOK` are set. -/
def Obligations.EncodeChecksInOrder : Prop :=
  ∀ s : State, exec .eCheck s = .next
    (if s.bwIn.toNat < 1 ∨ 7 < s.bwIn.toNat then s.failed .invalidBitWidth
     else if s.keyCtl = 1#1 ∧ s.keyLen = 0#32 then s.failed .invalidKey
     else if (s.payLen.toNat : Int) > available (s.gridH.toNat * s.gridW.toNat * 3) s.bwIn.toNat then
       s.failed .payloadTooLarge
     else { s with bw := s.bwIn, len := s.payLen, keyok := s.keyCtl == 1#1, phase := 2#4 })

/-- R172 `E.PRO`: cells 0 .. 5 take the six prologue bits in their bit 0, and nothing else of `GRID` changes. -/
def Obligations.PrologueWritten : Prop :=
  ∀ s : State, s.grid.wf = true → 1 ≤ s.bw.toNat → s.bw.toNat ≤ 7 → s.cur = 0#34 → 6 ≤ s.gridSize →
    ∃ t, exec .ePro s = .next t ∧
      t = { s with
        obf := if s.keyok then 0b111#3 else 0b000#3,
        pro := BitVec.ofNat 6 ((if s.keyok then 7 else 0) * 8 + s.bw.toNat),
        v := 0, nc := 6#36, ci := 6#36, cur := 6#34, phase := 3#4, grid := t.grid } ∧
      t.grid.wf = true ∧
      ∀ k, (t.grid.read k).toNat =
        if k < 6 then replaceLow (s.grid.read k) 1 (chunk t.pro.toNat 1 k) else (s.grid.read k).toNat

/-- R176 `E.LEN`: the `LC(BW)` cells from cell 6 take the chunks of `LEN`, and nothing else of `GRID` changes. -/
def Obligations.LengthWritten : Prop :=
  ∀ s : State, s.grid.wf = true → 1 ≤ s.bw.toNat → s.bw.toNat ≤ 7 → s.cur = 6#34 →
    6 + lengthChunks s.bw.toNat ≤ s.gridSize →
    ∃ t, exec .eLen s = .next t ∧
      t = { s with
        v := 0, nc := BitVec.ofNat 36 (lengthChunks s.bw.toNat), ci := BitVec.ofNat 36 (lengthChunks s.bw.toNat),
        cur := BitVec.ofNat 34 (6 + lengthChunks s.bw.toNat), phase := 4#4, grid := t.grid } ∧
      t.grid.wf = true ∧
      ∀ k, (t.grid.read k).toNat =
        if 6 ≤ k ∧ k < 6 + lengthChunks s.bw.toNat then
          replaceLow (s.grid.read k) s.bw.toNat (chunk s.len.toNat s.bw.toNat (k - 6))
        else (s.grid.read k).toNat

/-- R187 `E.PAY` (with R186): the `PC(LEN, BW)` cells from `CUR` take the chunks of the payload integer, transformed when
`KEYOK = 1`; nothing else of `GRID` changes; the command ends in `DONE` with `BW_OUT` and `OBF_OUT` written. -/
def Obligations.PayloadWritten : Prop :=
  ∀ s : State, s.grid.wf = true → 1 ≤ s.bw.toNat → s.bw.toNat ≤ 7 → (s.keyok = true → s.keyLen ≠ 0#32) →
    s.cur.toNat + payloadChunks s.len.toNat s.bw.toNat ≤ s.gridSize →
    ∃ t, exec .ePay s = .next t ∧
      t = { s with
        v := 0, nc := BitVec.ofNat 36 (payloadChunks s.len.toNat s.bw.toNat),
        ci := BitVec.ofNat 36 (payloadChunks s.len.toNat s.bw.toNat),
        cur := BitVec.ofNat 34 (s.cur.toNat + payloadChunks s.len.toNat s.bw.toNat),
        bwOut := s.bw, obfOut := s.obf, phase := 0#4, run := .done, grid := t.grid } ∧
      t.grid.wf = true ∧
      ∀ k, (t.grid.read k).toNat =
        if s.cur.toNat ≤ k ∧ k < s.cur.toNat + payloadChunks s.len.toNat s.bw.toNat then
          replaceLow (s.grid.read k) s.bw.toNat
            (chunk (s.payloadValue s.keyok s.len.toNat) s.bw.toNat (k - s.cur.toNat))
        else (s.grid.read k).toNat

/-! ## The phases of DECODE -/

/-- R173 `D.PRO` with the order of checks of R174: room for 6 cells, the obfuscation sub-field, the bit-width sub-field, the key
absent, the key empty. No memory is written. -/
def Obligations.PrologueValidated : Prop :=
  ∀ s : State, s.cur = 0#34 →
    (s.gridSize < 6 → exec .dPro s = .next (s.failed .cursorExhausted)) ∧
    (6 ≤ s.gridSize →
      let P := gridValue s.grid 0 6 1
      let r : State := { s with pro := BitVec.ofNat 6 P, v := P, nc := 6#36, ci := 6#36, cur := 6#34 }
      let q : State := { r with obf := BitVec.ofNat 3 (P / 8), bw := BitVec.ofNat 4 (P % 8) }
      exec .dPro s = .next
        (if P / 8 ≠ 7 ∧ P / 8 ≠ 0 then r.failed .corruptHeader
         else if P % 8 = 0 then r.failed .invalidBitWidth
         else if P / 8 = 7 then
           if s.keyCtl = 0#1 then q.failed .missingKey
           else if s.keyLen = 0#32 then q.failed .invalidKey
           else { q with keyok := true, phase := 6#4 }
         else { q with keyok := false, phase := 6#4 }))

/-- R177 `D.LEN`: the length field from cell 6, reduced to 32 bits, and the two room checks. No memory is written. -/
def Obligations.LengthRead : Prop :=
  ∀ s : State, 1 ≤ s.bw.toNat → s.bw.toNat ≤ 7 → s.cur = 6#34 →
    let L := lengthChunks s.bw.toNat
    (s.gridSize < 6 + L → exec .dLen s = .next (s.failed .cursorExhausted)) ∧
    (6 + L ≤ s.gridSize →
      let U := gridValue s.grid 6 L s.bw.toNat
      let r : State := { s with
        v := U, nc := BitVec.ofNat 36 L, ci := BitVec.ofNat 36 L, cur := BitVec.ofNat 34 (6 + L),
        len := BitVec.ofNat 32 (U % 2 ^ 32) }
      exec .dLen s = .next
        (if s.gridSize < 6 + L + payloadChunks (U % 2 ^ 32) s.bw.toNat then r.failed .cursorExhausted
         else { r with phase := 7#4 }))

/-- R189 `D.PAY`: the payload cells from `CUR`, reduced to `8 * LEN` bits, become the bytes `PAY[0 .. LEN - 1]`, transformed
when `KEYOK = 1`; no other byte of `PAY` and no cell of `GRID` changes; the command ends in `DONE` with its outputs written. -/
def Obligations.PayloadStored : Prop :=
  ∀ s : State, s.pay.wf = true → 1 ≤ s.bw.toNat → s.bw.toNat ≤ 7 → (s.keyok = true → s.keyLen ≠ 0#32) →
    s.cur.toNat + payloadChunks s.len.toNat s.bw.toNat ≤ s.gridSize →
    let M := payloadChunks s.len.toNat s.bw.toNat
    let U := gridValue s.grid s.cur.toNat M s.bw.toNat
    ∃ t, exec .dPay s = .next t ∧
      t = { s with
        v := U, nc := BitVec.ofNat 36 M, ci := BitVec.ofNat 36 M, cur := BitVec.ofNat 34 (s.cur.toNat + M),
        lenOut := s.len, bwOut := s.bw, obfOut := s.obf, phase := 0#4, run := .done, pay := t.pay } ∧
      t.pay.wf = true ∧
      ∀ i, t.pay.read i =
        if i < s.len.toNat then s.payloadOut s.keyok (U % 2 ^ (8 * s.len.toNat)) s.len.toNat i else s.pay.read i

/-- The precondition of the packer's rules R160 to R164, `1 <= bw <= 7`, where one of the four phases that use `BW` finds it outside:
the model stops by name, its log entry 9. In a state of the invariant in which one of these phases is about to run, or `E.PRO` is,
`BW` is not outside. -/
def Obligations.UnvalidatedWidthStops : Prop :=
  (∀ s : State, (s.bw.toNat < 1 ∨ 7 < s.bw.toNat) →
    ∀ i ∈ [Instr.eLen, Instr.ePay, Instr.dLen, Instr.dPay], exec i s = .fault (.widthNotLegal s.bw)) ∧
  ∀ s : State, s.inv = true → s.run = .busy → s.phase.toNat ∈ [2, 3, 4, 6, 7] → 1 ≤ s.bw.toNat ∧ s.bw.toNat ≤ 7

/-! ## XorStream and the payload integer -/

/-- R143 `XORAPPLY`: from the command's start, with a usable key `PAY[i]` becomes `PAY[i] XOR KEY[i mod KEY_LEN]` for each
`i < PAY_LEN` and nothing else of a memory changes; without one it fails with `InvalidKey` and `PAY` is unchanged. `CMD = 0x04` after the start is the
model's log entry 6. -/
def Obligations.XorapplyResult : Prop :=
  (∀ s : State, s.run ≠ .busy → exec .xorapply s = .next (s.started 0x04#8 8#4)) ∧
  ∀ s : State,
    (s.keyCtl = 0#1 ∨ s.keyLen = 0#32 → exec .xRun s = .next (s.failed .invalidKey)) ∧
    (s.keyCtl = 1#1 → s.keyLen ≠ 0#32 → s.pay.wf = true →
      ∃ t, exec .xRun s = .next t ∧ t = { s with phase := 0#4, run := .done, pay := t.pay } ∧ t.pay.wf = true ∧
        ∀ i, t.pay.read i =
          if i < s.payLen.toNat then s.pay.read i ^^^ s.key.read (i % s.keyLen.toNat) else s.pay.read i)

/-- R141: the bytes of one `XORAPPLY` are those of `apply(data, key)`, and a second one with the same key restores `PAY`. -/
def Obligations.XorapplyIsSelfInverse : Prop :=
  ∀ s : State, s.run ≠ .busy → s.keyCtl = 1#1 → s.keyLen ≠ 0#32 → s.pay.wf = true →
    ∃ t u, runCommand .xorapply s = .next t ∧ runCommand .xorapply t = .next u ∧
      (∀ i, i < s.payLen.toNat → t.pay.read i = s.pay.read i ^^^ s.key.read (i % s.keyLen.toNat)) ∧
      (∀ i, s.payLen.toNat ≤ i → t.pay.read i = s.pay.read i) ∧ u.pay = s.pay

/-- R185: `ToInt` is the big-endian sum, below `2^(8 * size)`, and `ToBytes` gives the bytes back, leading zero bytes included. -/
def Obligations.ToBytesInvertsToInt : Prop :=
  ∀ bs : List Byte,
    toInt bs = ((List.range bs.length).map fun i => (bs.getD i 0#8).toNat * 2 ^ (8 * (bs.length - 1 - i))).sum ∧
    toInt bs < 2 ^ (8 * bs.length) ∧ toBytes (toInt bs) bs.length = bs ∧
    ∀ v size i, v < 2 ^ (8 * size) → i < size →
      ((toBytes v size).getD i 0#8).toNat = v / 2 ^ (8 * (size - 1 - i)) % 256

/-! ## Whole commands -/

/-- R205 (with R201): the state an accepted `ENCODE` ends in, every register and every cell of it. `CMD` in it is the model's log
entry 6. -/
def Obligations.EncodeClosedForm : Prop :=
  ∀ s : State, s.run ≠ .busy → s.encodable → s.grid.wf = true →
    let bw := s.bwIn.toNat
    let size := s.payLen.toNat
    let L := lengthChunks bw
    let M := payloadChunks size bw
    ∃ r t, exec .encode s = .next r ∧ runPhases maxPhases r = .next t ∧
      t = { s.started 0x01#8 0#4 with
        run := .done, bw := s.bwIn, bwOut := s.bwIn, len := s.payLen, keyok := s.keyPresent,
        obf := if s.keyPresent then 0b111#3 else 0b000#3, obfOut := if s.keyPresent then 0b111#3 else 0b000#3,
        pro := BitVec.ofNat 6 s.prologueIn, nc := BitVec.ofNat 36 M, ci := BitVec.ofNat 36 M,
        cur := BitVec.ofNat 34 (6 + L + M), grid := t.grid } ∧
      t.grid.wf = true ∧ 6 + L + M ≤ s.gridSize ∧
      ∀ k, (t.grid.read k).toNat =
        if k < 6 then replaceLow (s.grid.read k) 1 (chunk s.prologueIn 1 k)
        else if k < 6 + L then replaceLow (s.grid.read k) bw (chunk size bw (k - 6))
        else if k < 6 + L + M then
          replaceLow (s.grid.read k) bw (chunk (s.payloadValue s.keyPresent size) bw (k - 6 - L))
        else (s.grid.read k).toNat

/-- R206 (with R202): the state a `DECODE` that meets no failure ends in, every register and every byte of it. `CMD` in it is the
model's log entry 6. -/
def Obligations.DecodeClosedForm : Prop :=
  ∀ s : State, s.run ≠ .busy → s.decodable → s.pay.wf = true →
    let bw := s.widthFound
    let size := s.sizeFound
    let L := lengthChunks bw
    let M := payloadChunks size bw
    ∃ r t, exec .decode s = .next r ∧ runPhases maxPhases r = .next t ∧
      t = { s.started 0x02#8 0#4 with
        run := .done, bw := BitVec.ofNat 4 bw, bwOut := BitVec.ofNat 4 bw, len := BitVec.ofNat 32 size,
        lenOut := BitVec.ofNat 32 size, obf := BitVec.ofNat 3 s.obfFound, obfOut := BitVec.ofNat 3 s.obfFound,
        keyok := decide (s.obfFound = 7), pro := BitVec.ofNat 6 s.prologueFound, v := s.payloadFound,
        nc := BitVec.ofNat 36 M, ci := BitVec.ofNat 36 M, cur := BitVec.ofNat 34 (6 + L + M), pay := t.pay } ∧
      t.pay.wf = true ∧
      ∀ i, t.pay.read i =
        if i < size then s.payloadOut (decide (s.obfFound = 7)) (s.payloadFound % 2 ^ (8 * size)) size i
        else s.pay.read i

/-- R241 for `DECODE`, with the `CUR` of R238: a grid that does not decode ends in `FAULT` with the first failure of the list, the
memories as they were and the outputs 0. -/
def Obligations.DecodeFailsWithFirstCause : Prop :=
  ∀ s : State, s.run ≠ .busy → ¬s.decodable →
    ∃ t, runCommand .decode s = .next t ∧ t.run = .fault ∧ t.phase = 0#4 ∧ t.outputsClear = true ∧
      t.grid = s.grid ∧ t.pay = s.pay ∧ t.key = s.key ∧
      (t.fault, t.cur.toNat) =
        if s.gridSize < 6 then (some .cursorExhausted, 0)
        else if s.obfFound ≠ 0 ∧ s.obfFound ≠ 7 then (some .corruptHeader, 6)
        else if s.widthFound = 0 then (some .invalidBitWidth, 6)
        else if s.obfFound = 7 ∧ s.keyPresent = false then (some .missingKey, 6)
        else if s.obfFound = 7 ∧ s.keyLen = 0#32 then (some .invalidKey, 6)
        else if s.gridSize < 6 + lengthChunks s.widthFound then (some .cursorExhausted, 6)
        else (some .cursorExhausted, 6 + lengthChunks s.widthFound)

/-- R243, R28: a command that ends in `FAULT` leaves the three memories and the input registers as they were, and the output
registers 0. -/
def Obligations.FailedCommandChangesNoMemory : Prop :=
  ∀ (i : Instr) (s t : State), isCommand i = true → s.run ≠ .busy → runCommand i s = .next t → t.run = .fault →
    t.grid = s.grid ∧ t.pay = s.pay ∧ t.key = s.key ∧ t.outputsClear = true ∧
    t.gridH = s.gridH ∧ t.gridW = s.gridW ∧ t.bwIn = s.bwIn ∧ t.keyCtl = s.keyCtl ∧ t.keyLen = s.keyLen ∧
    t.payLen = s.payLen ∧ t.arg = s.arg

/-- R208 with R231 and R241: every command, from every state in which none runs, ends after at most four phases, in `DONE` or in `FAULT`
with one of its own failure kinds; `ENCODE` never with `CursorExhausted` (R238). -/
def Obligations.EveryCommandEnds : Prop :=
  ∀ (i : Instr) (s : State), isCommand i = true → s.run ≠ .busy →
    ∃ t, runCommand i s = .next t ∧ t.phase = 0#4 ∧
      ((t.run = .done ∧ t.fault = none) ∨ (t.run = .fault ∧ ∃ f ∈ failureKinds i, t.fault = some f))

/-- R102: the `KEEP` bits of every cell and all cells a `DECODE` does not reach have no effect on it: two grids that agree on bit 0
of cells 0 .. 5 and on the low `BW_OUT` bits of the cells from 6 up to the final `CUR` decode alike. -/
def Obligations.DecodeIgnoresKeepBits : Prop :=
  ∀ (s t : State) (g : Memory), s.run ≠ .busy → runCommand .decode s = .next t → t.run = .done →
    (∀ k, k < 6 → (g.read k).toNat % 2 = (s.grid.read k).toNat % 2) →
    (∀ k, 6 ≤ k → k < t.cur.toNat →
      (g.read k).toNat % 2 ^ t.bwOut.toNat = (s.grid.read k).toNat % 2 ^ t.bwOut.toNat) →
    runCommand .decode { s with grid := g } = .next { t with grid := g }

/-- R190, in the stronger form that R268 gives it: an `ENCODE` that is accepted ends in `DONE`, and a `DECODE` with the same key
registers and key, of any grid that has at least the final `CUR` cells and in them the cells `ENCODE` left, ends in `DONE` with the
payload in `PAY` and with the same `CUR`. -/
def Obligations.RoundTrip : Prop :=
  ∀ s : State, s.run ≠ .busy → s.encodable → s.grid.wf = true →
    ∃ t, runCommand .encode s = .next t ∧ t.run = .done ∧
      ∀ d : State, d.run ≠ .busy → d.pay.wf = true → d.keyCtl = s.keyCtl → d.keyLen = s.keyLen → d.key = s.key →
        t.cur.toNat ≤ d.gridSize → (∀ k, k < t.cur.toNat → d.grid.read k = t.grid.read k) →
        ∃ u, runCommand .decode d = .next u ∧ u.run = .done ∧ u.lenOut = s.payLen ∧ u.bwOut = s.bwIn ∧
          u.obfOut = (if s.keyPresent then 0b111#3 else 0b000#3) ∧ u.cur = t.cur ∧
          ∀ i, i < s.payLen.toNat → u.pay.read i = s.pay.read i

/-! ## The machine -/

/-- R24: phase `IDLE` does "nothing". -/
def Obligations.IdleDoesNothing : Prop := ∀ s : State, exec .idle s = .next s

/-- A step runs the decoded instruction: the sequencer's, from `STATUS.PHASE` (R24), when the host has no action pending, while it
waits, or when it lets CORE run; the host's, from its write to `CMD` (R200). Any action but a wait is taken off the host's list and
done: a write, a read, a store, a load, the reset input. What the step adds around `exec`, the host's list of actions, is the model's
log entry 1; that a phase code above 9 is refused, in all three circumstances, is its log entry 9. -/
def Obligations.StepRunsDecodedInstruction : Prop :=
  (∀ (s : State) (i : Instr), s.host = [] → decode (.phase s.phase) = .ok i → step s = exec i s) ∧
  (∀ (s : State) (e : DecodeRefusal) (rest : List HostAction),
    s.host = [] ∨ s.host = .wait :: rest ∧ s.run = .busy ∨ s.host = .advance :: rest →
    decode (.phase s.phase) = .error e → step s = .refused (.reservedPhase s.phase)) ∧
  (∀ (s : State) (i : Instr) (rest : List HostAction), s.host = .wait :: rest → s.run = .busy →
    decode (.phase s.phase) = .ok i → step s = exec i s) ∧
  (∀ (s : State) (rest : List HostAction), s.host = .wait :: rest → s.run ≠ .busy → step s = .next { s with host := rest }) ∧
  (∀ (s : State) (i : Instr) (rest : List HostAction), s.host = .advance :: rest → decode (.phase s.phase) = .ok i →
    step s = exec i { s with host := rest }) ∧
  (∀ (s : State) (i : Instr) (c : Nat) (rest : List HostAction), s.host = .write 0 c :: rest →
    decode (.cmd (BitVec.ofNat 8 c)) = .ok i → step s = exec i { s with host := rest }) ∧
  (∀ (s : State) (c : Nat) (rest : List HostAction) (e : DecodeRefusal), s.host = .write 0 c :: rest → s.run ≠ .busy →
    decode (.cmd (BitVec.ofNat 8 c)) = .error e →
    step s = illegalCommand (BitVec.ofNat 8 c) { s with host := rest }) ∧
  (∀ (s : State) (a : HostAction) (rest : List HostAction), s.host = a :: rest → a ≠ .wait →
    step s = hostAct a { s with host := rest }) ∧
  (∀ s : State,
    (∀ n v, hostAct (.write n v) s = hostWrite n v s) ∧ (∀ n, hostAct (.read n) s = hostRead n s) ∧
    (∀ sp k b, hostAct (.store sp k b) s = hostStore sp k b s) ∧ (∀ sp k, hostAct (.load sp k) s = hostLoad sp k s) ∧
    hostAct .advance s = runPhase s ∧ hostAct .reset s = .next (resetInput s) ∧
    ∀ v, s.run ≠ .busy → hostWrite 0 v s = writeCommand (BitVec.ofNat 8 v) s)

/-- R203: while `BUSY` a phase is followed by its command's next phase, or ends the command with `PHASE = IDLE`: in `DONE` from the
last phase, in `FAULT` from a phase that can fail. No phase is re-entered. -/
def Obligations.PhasesFollowTheirOrder : Prop :=
  ∀ s t : State, s.inv = true → s.run = .busy → runPhase s = .next t →
    (t.run = .busy ∧ (s.phase.toNat, t.phase.toNat) ∈ [(1, 2), (2, 3), (3, 4), (5, 6), (6, 7)]) ∨
    (t.run = .done ∧ t.phase = 0#4 ∧ t.fault = none ∧ s.phase.toNat ∈ [4, 7, 8, 9]) ∨
    (t.run = .fault ∧ t.phase = 0#4 ∧ t.fault ≠ none ∧ s.phase.toNat ∈ [1, 5, 6, 8, 9])

/-- R60, R61, R263 (with R200: operands are read, not written): whatever phase runs and in whatever state, no input register, no byte of
`KEY` and nothing of the host's changes; `GRID` changes in the phases of `ENCODE` only; `PAY` in `D.PAY` and `X.RUN` only. -/
def Obligations.PhasesKeepInputs : Prop :=
  ∀ s t : State, runPhase s = .next t →
    t.gridH = s.gridH ∧ t.gridW = s.gridW ∧ t.bwIn = s.bwIn ∧ t.keyCtl = s.keyCtl ∧ t.keyLen = s.keyLen ∧
    t.payLen = s.payLen ∧ t.arg = s.arg ∧ t.cmd = s.cmd ∧ t.key = s.key ∧ t.host = s.host ∧ t.readData = s.readData ∧
    t.draws = s.draws ∧
    (s.phase.toNat ∉ [2, 3, 4] → t.grid = s.grid) ∧ (s.phase.toNat ∉ [7, 8] → t.pay = s.pay)

/-- R22, R244: from `IDLE`, `DONE` or `FAULT` only a `CMD` write or the reset input leaves: after any other step `STATE`, `FAULT`, `PHASE`
and the output registers are as they were. -/
def Obligations.OutcomePersists : Prop :=
  ∀ s t : State, s.inv = true → s.run ≠ .busy → step s = .next t →
    (∀ c rest, s.host ≠ .write 0 c :: rest) → (∀ rest, s.host ≠ .reset :: rest) →
    t.run = s.run ∧ t.fault = s.fault ∧ t.phase = s.phase ∧ t.result = s.result ∧ t.lenOut = s.lenOut ∧
    t.bwOut = s.bwOut ∧ t.obfOut = s.obfOut ∧ t.cur = s.cur

/-- The invariant holds of the state after reset. -/
def Obligations.ResetMeetsInvariant : Prop := State.reset.inv = true

/-- Every step keeps the invariant: the memories stay canonical, `PHASE` stays one of the ten phases and `IDLE` outside `BUSY`, `CUR` stands
where the phase begins (R170), the active BitWidth stays legal (R173, R204), the outputs read 0 until `DONE` (R28), `FAULT` is set exactly
in `FAULT` and never to `InvalidImage` (R231, R233). -/
def Obligations.StepKeepsInvariant : Prop :=
  ∀ s t : State, s.inv = true → step s = .next t → t.inv = true

/-- R208, R152, R122, R134, R142: from a state of the invariant no step stops on a precondition of a rule (the model's log entry 9), and a
step is refused only where the host reaches for a memory while `BUSY` (R266, log entry 16) or for a register number above 14 (the model's
log entry 8: no rule says what happens there). -/
def Obligations.StepNeverStopsCore : Prop :=
  ∀ s : State, s.inv = true →
    (∀ r, step s ≠ .fault r) ∧
    (∀ r, step s = .refused r → (r = .hostMemoryWhileBusy ∧ s.run = .busy) ∨ ∃ n, 14 < n ∧ r = .noSuchRegister n)

/-- R175: with a usable key, of the 64 values of `PRO` the validation of `D.PRO` passes exactly 14, those with a flag 0b000 or 0b111 and a
width 1 .. 7, and goes on with that flag and width; 48 raise `CorruptHeader`, those with another flag; 2 raise `InvalidBitWidth`, those
with a legal flag and width 0. -/
def Obligations.FourteenProloguesPass : Prop :=
  ∀ s : State, s.keyUsable = true →
    let validated : Nat → Eff Unit := fun p => validatePrologue { s with pro := BitVec.ofNat 6 p }
    ((List.range 64).filter fun p => (validated p).goesOn).length = 14 ∧
    ((List.range 64).filter fun p => (validated p).raises .corruptHeader).length = 48 ∧
    ((List.range 64).filter fun p => (validated p).raises .invalidBitWidth).length = 2 ∧
    ∀ p, p < 64 →
      ((validated p).raises .corruptHeader = true ↔ p / 8 ≠ 0 ∧ p / 8 ≠ 7) ∧
      ((validated p).raises .invalidBitWidth = true ↔ (p / 8 = 0 ∨ p / 8 = 7) ∧ p % 8 = 0) ∧
      ((p / 8 = 0 ∨ p / 8 = 7) → p % 8 ≠ 0 →
        validated p = .ok () { s with
          pro := BitVec.ofNat 6 p, obf := BitVec.ofNat 3 (p / 8), bw := BitVec.ofNat 4 (p % 8),
          keyok := decide (p / 8 = 7), phase := 6#4 })

/-- The model's log entry 6, no rule of the spec: an accepted host write to `CMD`, of a command or of a value that selects none, leaves
its low 8 bits there, and one while `BUSY` leaves `CMD` as it was. The host reads 0 there in every state (R21). -/
def Obligations.CmdKeepsAcceptedWrite : Prop :=
  (∀ (v : Nat) (s : State), ∃ t, hostWrite 0 v s = .next t ∧
    t.cmd = if s.run = .busy then s.cmd else BitVec.ofNat 8 v) ∧
  ∀ s : State, hostRead 0 s = .next { s with readData := 0#64 }

/-- R21, R207: a host read is permitted at any time; while no command runs (R265 bounds only the reads while `BUSY`) it answers the
value the register holds, and changes nothing but the model's own `readData`. In every state the registers 3 .. 14 hold the
fields R21's table names, zero-extended; `CMD` reads as 0; `STATUS` and `FAULT` are `StatusRegisterLayout`. -/
def Obligations.ReadsAtRestAnswerRegisters : Prop :=
  ∀ s : State,
    (s.run ≠ .busy → ∀ n : Nat, n ≤ 14 →
      ∃ x, registerValue n s = some x ∧ hostRead n s = .next { s with readData := x }) ∧
    ∀ p ∈ [(0, 0), (3, s.gridH.toNat), (4, s.gridW.toNat), (5, s.bwIn.toNat), (6, s.keyCtl.toNat), (7, s.keyLen.toNat),
        (8, s.payLen.toNat), (9, s.arg.toNat), (10, s.result.toNat), (11, s.lenOut.toNat), (12, s.bwOut.toNat),
        (13, s.obfOut.toNat), (14, s.cur.toNat)],
      registerValue p.1 s = some (BitVec.ofNat 64 p.2)
end

