-- ==== Sys2Proof/Laws/State.lean ====
section
/-! SUPPORT. One lemma per field of State for each of the named updates: failure entry (R242), the end of a command (R203),
the start of a command (R27), a memory replaced; and the same for the observers that read the input registers. -/

namespace Sys2Proof.Machine

/-! ### `failEntry` -/

@[simp] theorem failEntry_cmd (f : Failure) (s : State) : (failEntry f s).cmd = s.cmd := rfl
@[simp] theorem failEntry_run (f : Failure) (s : State) : (failEntry f s).run = .fault := rfl
@[simp] theorem failEntry_phase (f : Failure) (s : State) : (failEntry f s).phase = Phase.idle := rfl
@[simp] theorem failEntry_fault (f : Failure) (s : State) : (failEntry f s).fault = some f := rfl
@[simp] theorem failEntry_gridH (f : Failure) (s : State) : (failEntry f s).gridH = s.gridH := rfl
@[simp] theorem failEntry_gridW (f : Failure) (s : State) : (failEntry f s).gridW = s.gridW := rfl
@[simp] theorem failEntry_bwIn (f : Failure) (s : State) : (failEntry f s).bwIn = s.bwIn := rfl
@[simp] theorem failEntry_keyCtl (f : Failure) (s : State) : (failEntry f s).keyCtl = s.keyCtl := rfl
@[simp] theorem failEntry_keyLen (f : Failure) (s : State) : (failEntry f s).keyLen = s.keyLen := rfl
@[simp] theorem failEntry_payLen (f : Failure) (s : State) : (failEntry f s).payLen = s.payLen := rfl
@[simp] theorem failEntry_arg (f : Failure) (s : State) : (failEntry f s).arg = s.arg := rfl
@[simp] theorem failEntry_result (f : Failure) (s : State) : (failEntry f s).result = s.result := rfl
@[simp] theorem failEntry_lenOut (f : Failure) (s : State) : (failEntry f s).lenOut = s.lenOut := rfl
@[simp] theorem failEntry_bwOut (f : Failure) (s : State) : (failEntry f s).bwOut = s.bwOut := rfl
@[simp] theorem failEntry_obfOut (f : Failure) (s : State) : (failEntry f s).obfOut = s.obfOut := rfl
@[simp] theorem failEntry_cur (f : Failure) (s : State) : (failEntry f s).cur = s.cur := rfl
@[simp] theorem failEntry_bw (f : Failure) (s : State) : (failEntry f s).bw = s.bw := rfl
@[simp] theorem failEntry_obf (f : Failure) (s : State) : (failEntry f s).obf = s.obf := rfl
@[simp] theorem failEntry_pro (f : Failure) (s : State) : (failEntry f s).pro = s.pro := rfl
@[simp] theorem failEntry_len (f : Failure) (s : State) : (failEntry f s).len = s.len := rfl
@[simp] theorem failEntry_v (f : Failure) (s : State) : (failEntry f s).v = s.v := rfl
@[simp] theorem failEntry_nc (f : Failure) (s : State) : (failEntry f s).nc = s.nc := rfl
@[simp] theorem failEntry_ci (f : Failure) (s : State) : (failEntry f s).ci = s.ci := rfl
@[simp] theorem failEntry_keyok (f : Failure) (s : State) : (failEntry f s).keyok = s.keyok := rfl
@[simp] theorem failEntry_grid (f : Failure) (s : State) : (failEntry f s).grid = s.grid := rfl
@[simp] theorem failEntry_pay (f : Failure) (s : State) : (failEntry f s).pay = s.pay := rfl
@[simp] theorem failEntry_key (f : Failure) (s : State) : (failEntry f s).key = s.key := rfl
@[simp] theorem failEntry_host (f : Failure) (s : State) : (failEntry f s).host = s.host := rfl
@[simp] theorem failEntry_readData (f : Failure) (s : State) : (failEntry f s).readData = s.readData := rfl
@[simp] theorem failEntry_draws (f : Failure) (s : State) : (failEntry f s).draws = s.draws := rfl
@[simp] theorem failEntry_gridSize (f : Failure) (s : State) : (failEntry f s).gridSize = s.gridSize := rfl
@[simp] theorem failEntry_keyPresent (f : Failure) (s : State) : (failEntry f s).keyPresent = s.keyPresent := rfl
@[simp] theorem failEntry_keyFilled (f : Failure) (s : State) : (failEntry f s).keyFilled = s.keyFilled := rfl
@[simp] theorem failEntry_keyUsable (f : Failure) (s : State) : (failEntry f s).keyUsable = s.keyUsable := rfl

/-! ### `finishCommand` -/

@[simp] theorem finishCommand_cmd (s : State) : (finishCommand s).cmd = s.cmd := rfl
@[simp] theorem finishCommand_run (s : State) : (finishCommand s).run = .done := rfl
@[simp] theorem finishCommand_phase (s : State) : (finishCommand s).phase = Phase.idle := rfl
@[simp] theorem finishCommand_fault (s : State) : (finishCommand s).fault = s.fault := rfl
@[simp] theorem finishCommand_gridH (s : State) : (finishCommand s).gridH = s.gridH := rfl
@[simp] theorem finishCommand_gridW (s : State) : (finishCommand s).gridW = s.gridW := rfl
@[simp] theorem finishCommand_bwIn (s : State) : (finishCommand s).bwIn = s.bwIn := rfl
@[simp] theorem finishCommand_keyCtl (s : State) : (finishCommand s).keyCtl = s.keyCtl := rfl
@[simp] theorem finishCommand_keyLen (s : State) : (finishCommand s).keyLen = s.keyLen := rfl
@[simp] theorem finishCommand_payLen (s : State) : (finishCommand s).payLen = s.payLen := rfl
@[simp] theorem finishCommand_arg (s : State) : (finishCommand s).arg = s.arg := rfl
@[simp] theorem finishCommand_result (s : State) : (finishCommand s).result = s.result := rfl
@[simp] theorem finishCommand_lenOut (s : State) : (finishCommand s).lenOut = s.lenOut := rfl
@[simp] theorem finishCommand_bwOut (s : State) : (finishCommand s).bwOut = s.bwOut := rfl
@[simp] theorem finishCommand_obfOut (s : State) : (finishCommand s).obfOut = s.obfOut := rfl
@[simp] theorem finishCommand_cur (s : State) : (finishCommand s).cur = s.cur := rfl
@[simp] theorem finishCommand_bw (s : State) : (finishCommand s).bw = s.bw := rfl
@[simp] theorem finishCommand_obf (s : State) : (finishCommand s).obf = s.obf := rfl
@[simp] theorem finishCommand_pro (s : State) : (finishCommand s).pro = s.pro := rfl
@[simp] theorem finishCommand_len (s : State) : (finishCommand s).len = s.len := rfl
@[simp] theorem finishCommand_v (s : State) : (finishCommand s).v = s.v := rfl
@[simp] theorem finishCommand_nc (s : State) : (finishCommand s).nc = s.nc := rfl
@[simp] theorem finishCommand_ci (s : State) : (finishCommand s).ci = s.ci := rfl
@[simp] theorem finishCommand_keyok (s : State) : (finishCommand s).keyok = s.keyok := rfl
@[simp] theorem finishCommand_grid (s : State) : (finishCommand s).grid = s.grid := rfl
@[simp] theorem finishCommand_pay (s : State) : (finishCommand s).pay = s.pay := rfl
@[simp] theorem finishCommand_key (s : State) : (finishCommand s).key = s.key := rfl
@[simp] theorem finishCommand_host (s : State) : (finishCommand s).host = s.host := rfl
@[simp] theorem finishCommand_readData (s : State) : (finishCommand s).readData = s.readData := rfl
@[simp] theorem finishCommand_draws (s : State) : (finishCommand s).draws = s.draws := rfl
@[simp] theorem finishCommand_gridSize (s : State) : (finishCommand s).gridSize = s.gridSize := rfl
@[simp] theorem finishCommand_keyPresent (s : State) : (finishCommand s).keyPresent = s.keyPresent := rfl
@[simp] theorem finishCommand_keyFilled (s : State) : (finishCommand s).keyFilled = s.keyFilled := rfl
@[simp] theorem finishCommand_keyUsable (s : State) : (finishCommand s).keyUsable = s.keyUsable := rfl

/-! ### `startCommand` -/

@[simp] theorem startCommand_cmd (s : State) : (startCommand s).cmd = s.cmd := rfl
@[simp] theorem startCommand_run (s : State) : (startCommand s).run = .busy := rfl
@[simp] theorem startCommand_phase (s : State) : (startCommand s).phase = s.phase := rfl
@[simp] theorem startCommand_fault (s : State) : (startCommand s).fault = none := rfl
@[simp] theorem startCommand_gridH (s : State) : (startCommand s).gridH = s.gridH := rfl
@[simp] theorem startCommand_gridW (s : State) : (startCommand s).gridW = s.gridW := rfl
@[simp] theorem startCommand_bwIn (s : State) : (startCommand s).bwIn = s.bwIn := rfl
@[simp] theorem startCommand_keyCtl (s : State) : (startCommand s).keyCtl = s.keyCtl := rfl
@[simp] theorem startCommand_keyLen (s : State) : (startCommand s).keyLen = s.keyLen := rfl
@[simp] theorem startCommand_payLen (s : State) : (startCommand s).payLen = s.payLen := rfl
@[simp] theorem startCommand_arg (s : State) : (startCommand s).arg = s.arg := rfl
@[simp] theorem startCommand_result (s : State) : (startCommand s).result = 0#64 := rfl
@[simp] theorem startCommand_lenOut (s : State) : (startCommand s).lenOut = 0#32 := rfl
@[simp] theorem startCommand_bwOut (s : State) : (startCommand s).bwOut = 0#4 := rfl
@[simp] theorem startCommand_obfOut (s : State) : (startCommand s).obfOut = 0#3 := rfl
@[simp] theorem startCommand_cur (s : State) : (startCommand s).cur = 0#34 := rfl
@[simp] theorem startCommand_bw (s : State) : (startCommand s).bw = 0#4 := rfl
@[simp] theorem startCommand_obf (s : State) : (startCommand s).obf = 0#3 := rfl
@[simp] theorem startCommand_pro (s : State) : (startCommand s).pro = 0#6 := rfl
@[simp] theorem startCommand_len (s : State) : (startCommand s).len = 0#32 := rfl
@[simp] theorem startCommand_v (s : State) : (startCommand s).v = 0 := rfl
@[simp] theorem startCommand_nc (s : State) : (startCommand s).nc = 0#36 := rfl
@[simp] theorem startCommand_ci (s : State) : (startCommand s).ci = 0#36 := rfl
@[simp] theorem startCommand_keyok (s : State) : (startCommand s).keyok = false := rfl
@[simp] theorem startCommand_grid (s : State) : (startCommand s).grid = s.grid := rfl
@[simp] theorem startCommand_pay (s : State) : (startCommand s).pay = s.pay := rfl
@[simp] theorem startCommand_key (s : State) : (startCommand s).key = s.key := rfl
@[simp] theorem startCommand_host (s : State) : (startCommand s).host = s.host := rfl
@[simp] theorem startCommand_readData (s : State) : (startCommand s).readData = s.readData := rfl
@[simp] theorem startCommand_draws (s : State) : (startCommand s).draws = s.draws := rfl
@[simp] theorem startCommand_gridSize (s : State) : (startCommand s).gridSize = s.gridSize := rfl
@[simp] theorem startCommand_keyPresent (s : State) : (startCommand s).keyPresent = s.keyPresent := rfl
@[simp] theorem startCommand_keyFilled (s : State) : (startCommand s).keyFilled = s.keyFilled := rfl
@[simp] theorem startCommand_keyUsable (s : State) : (startCommand s).keyUsable = s.keyUsable := rfl

/-! ### `setMemory` -/

@[simp] theorem setMemory_cmd (s : State) (sp : Space) (m : Memory) : (s.setMemory sp m).cmd = s.cmd := by
  cases sp <;> rfl
@[simp] theorem setMemory_run (s : State) (sp : Space) (m : Memory) : (s.setMemory sp m).run = s.run := by
  cases sp <;> rfl
@[simp] theorem setMemory_phase (s : State) (sp : Space) (m : Memory) : (s.setMemory sp m).phase = s.phase := by
  cases sp <;> rfl
@[simp] theorem setMemory_fault (s : State) (sp : Space) (m : Memory) : (s.setMemory sp m).fault = s.fault := by
  cases sp <;> rfl
@[simp] theorem setMemory_gridH (s : State) (sp : Space) (m : Memory) : (s.setMemory sp m).gridH = s.gridH := by
  cases sp <;> rfl
@[simp] theorem setMemory_gridW (s : State) (sp : Space) (m : Memory) : (s.setMemory sp m).gridW = s.gridW := by
  cases sp <;> rfl
@[simp] theorem setMemory_bwIn (s : State) (sp : Space) (m : Memory) : (s.setMemory sp m).bwIn = s.bwIn := by
  cases sp <;> rfl
@[simp] theorem setMemory_keyCtl (s : State) (sp : Space) (m : Memory) : (s.setMemory sp m).keyCtl = s.keyCtl := by
  cases sp <;> rfl
@[simp] theorem setMemory_keyLen (s : State) (sp : Space) (m : Memory) : (s.setMemory sp m).keyLen = s.keyLen := by
  cases sp <;> rfl
@[simp] theorem setMemory_payLen (s : State) (sp : Space) (m : Memory) : (s.setMemory sp m).payLen = s.payLen := by
  cases sp <;> rfl
@[simp] theorem setMemory_arg (s : State) (sp : Space) (m : Memory) : (s.setMemory sp m).arg = s.arg := by
  cases sp <;> rfl
@[simp] theorem setMemory_result (s : State) (sp : Space) (m : Memory) : (s.setMemory sp m).result = s.result := by
  cases sp <;> rfl
@[simp] theorem setMemory_lenOut (s : State) (sp : Space) (m : Memory) : (s.setMemory sp m).lenOut = s.lenOut := by
  cases sp <;> rfl
@[simp] theorem setMemory_bwOut (s : State) (sp : Space) (m : Memory) : (s.setMemory sp m).bwOut = s.bwOut := by
  cases sp <;> rfl
@[simp] theorem setMemory_obfOut (s : State) (sp : Space) (m : Memory) : (s.setMemory sp m).obfOut = s.obfOut := by
  cases sp <;> rfl
@[simp] theorem setMemory_cur (s : State) (sp : Space) (m : Memory) : (s.setMemory sp m).cur = s.cur := by
  cases sp <;> rfl
@[simp] theorem setMemory_bw (s : State) (sp : Space) (m : Memory) : (s.setMemory sp m).bw = s.bw := by
  cases sp <;> rfl
@[simp] theorem setMemory_obf (s : State) (sp : Space) (m : Memory) : (s.setMemory sp m).obf = s.obf := by
  cases sp <;> rfl
@[simp] theorem setMemory_pro (s : State) (sp : Space) (m : Memory) : (s.setMemory sp m).pro = s.pro := by
  cases sp <;> rfl
@[simp] theorem setMemory_len (s : State) (sp : Space) (m : Memory) : (s.setMemory sp m).len = s.len := by
  cases sp <;> rfl
@[simp] theorem setMemory_v (s : State) (sp : Space) (m : Memory) : (s.setMemory sp m).v = s.v := by
  cases sp <;> rfl
@[simp] theorem setMemory_nc (s : State) (sp : Space) (m : Memory) : (s.setMemory sp m).nc = s.nc := by
  cases sp <;> rfl
@[simp] theorem setMemory_ci (s : State) (sp : Space) (m : Memory) : (s.setMemory sp m).ci = s.ci := by
  cases sp <;> rfl
@[simp] theorem setMemory_keyok (s : State) (sp : Space) (m : Memory) : (s.setMemory sp m).keyok = s.keyok := by
  cases sp <;> rfl
@[simp] theorem setMemory_host (s : State) (sp : Space) (m : Memory) : (s.setMemory sp m).host = s.host := by
  cases sp <;> rfl
@[simp] theorem setMemory_readData (s : State) (sp : Space) (m : Memory) : (s.setMemory sp m).readData = s.readData := by
  cases sp <;> rfl
@[simp] theorem setMemory_draws (s : State) (sp : Space) (m : Memory) : (s.setMemory sp m).draws = s.draws := by
  cases sp <;> rfl
@[simp] theorem setMemory_memory_same (s : State) (sp : Space) (m : Memory) : (s.setMemory sp m).memory sp = m := by
  cases sp <;> rfl

theorem setMemory_memory_other (s : State) (sp sp' : Space) (m : Memory) (h : sp' ≠ sp) :
    (s.setMemory sp m).memory sp' = s.memory sp' := by
  cases sp <;> cases sp' <;> first | rfl | exact absurd rfl h

end Sys2Proof.Machine
end

