-- ==== Sys2Proof/Laws/Memory.lean ====
section
/-! SUPPORT. The laws of the byte memories: reading after writing, the canonical form kept by every operation, and equal
reads from equal lists. -/

namespace Sys2Proof.Machine

@[simp] theorem Memory.read_nil (a : Nat) : Memory.read [] a = unlistedByte := rfl

theorem Memory.read_cons (k : Nat) (b : Byte) (m : Memory) (a : Nat) :
    Memory.read ((k, b) :: m) a = if k = a then b else Memory.read m a := rfl

@[simp] theorem Memory.wfFrom_nil (lo : Nat) : Memory.wfFrom lo [] = true := rfl

theorem Memory.wfFrom_cons (lo k : Nat) (b : Byte) (m : Memory) :
    Memory.wfFrom lo ((k, b) :: m) = true ↔ lo ≤ k ∧ b ≠ unlistedByte ∧ Memory.wfFrom (k + 1) m = true := by
  simp [Memory.wfFrom, and_assoc]

theorem Memory.wfFrom_mono {lo lo' : Nat} (h : lo' ≤ lo) {m : Memory} (hm : Memory.wfFrom lo m = true) :
    Memory.wfFrom lo' m = true := by
  cases m with
  | nil => rfl
  | cons c rest =>
    obtain ⟨k, b⟩ := c
    rw [Memory.wfFrom_cons] at hm ⊢
    exact ⟨by omega, hm.2⟩

/-- Below the least listed index every byte is the unlisted one. -/
theorem Memory.read_below {lo : Nat} {m : Memory} (hm : Memory.wfFrom lo m = true) {a : Nat} (ha : a < lo) :
    m.read a = unlistedByte := by
  induction m generalizing lo with
  | nil => rfl
  | cons c rest ih =>
    obtain ⟨k, b⟩ := c
    rw [Memory.wfFrom_cons] at hm
    rw [Memory.read_cons, if_neg (by omega)]
    exact ih hm.2.2 (by omega)

theorem Memory.read_writeFrom {lo : Nat} {m : Memory} (hm : Memory.wfFrom lo m = true) (a a' : Nat) (b : Byte) :
    (m.write a b).read a' = if a' = a then b else m.read a' := by
  induction m generalizing lo with
  | nil =>
    by_cases hb : b = unlistedByte <;> by_cases ha : a' = a <;>
      simp [Memory.write, Memory.read_cons, hb, ha, eq_comm (a := a)]
  | cons c rest ih =>
    obtain ⟨k, d⟩ := c
    have hw := (Memory.wfFrom_cons lo k d rest).1 hm
    have below : ∀ x, x < k + 1 → Memory.read rest x = unlistedByte := fun x hx => Memory.read_below hw.2.2 hx
    unfold Memory.write
    by_cases h1 : a < k
    · rw [if_pos h1]
      by_cases hb : b = unlistedByte
      · rw [if_pos hb]
        by_cases ha : a' = a
        · rw [if_pos ha, ha, Memory.read_cons, if_neg (by omega), below a (by omega), hb]
        · rw [if_neg ha]
      · rw [if_neg hb, Memory.read_cons (k := a)]
        simp only [eq_comm (a := a) (b := a')]
    · rw [if_neg h1]
      by_cases h2 : a = k
      · rw [if_pos h2]
        by_cases hb : b = unlistedByte
        · rw [if_pos hb]
          by_cases ha : a' = a
          · rw [if_pos ha, ha, below a (by omega), hb]
          · rw [if_neg ha, Memory.read_cons, if_neg (by omega)]
        · rw [if_neg hb, Memory.read_cons, Memory.read_cons]
          by_cases ha : a' = a
          · rw [if_pos ha, if_pos (by omega)]
          · rw [if_neg ha, if_neg (by omega), if_neg (by omega)]
      · rw [if_neg h2, Memory.read_cons, Memory.read_cons, ih hw.2.2]
        by_cases hk : k = a'
        · rw [if_pos hk, if_pos hk, if_neg (by omega)]
        · rw [if_neg hk, if_neg hk]

/-- The one law of writing: the byte written reads back, every other byte reads as before. -/
theorem Memory.read_write {m : Memory} (hm : m.wf = true) (a a' : Nat) (b : Byte) :
    (m.write a b).read a' = if a' = a then b else m.read a' :=
  Memory.read_writeFrom hm a a' b

theorem Memory.wfFrom_write {lo : Nat} {m : Memory} (hm : Memory.wfFrom lo m = true) {a : Nat} (ha : lo ≤ a) (b : Byte) :
    Memory.wfFrom lo (m.write a b) = true := by
  induction m generalizing lo with
  | nil =>
    by_cases hb : b = unlistedByte <;> simp [Memory.write, Memory.wfFrom_cons, hb, ha]
  | cons c rest ih =>
    obtain ⟨k, d⟩ := c
    have hw := (Memory.wfFrom_cons lo k d rest).1 hm
    unfold Memory.write
    by_cases h1 : a < k
    · rw [if_pos h1]
      by_cases hb : b = unlistedByte
      · rw [if_pos hb]; exact hm
      · rw [if_neg hb, Memory.wfFrom_cons, Memory.wfFrom_cons]
        exact ⟨ha, hb, by omega, hw.2⟩
    · rw [if_neg h1]
      by_cases h2 : a = k
      · rw [if_pos h2]
        by_cases hb : b = unlistedByte
        · rw [if_pos hb]; exact Memory.wfFrom_mono (by omega) hw.2.2
        · rw [if_neg hb, Memory.wfFrom_cons]; exact ⟨hw.1, hb, hw.2.2⟩
      · rw [if_neg h2, Memory.wfFrom_cons]
        exact ⟨hw.1, hw.2.1, ih hw.2.2 (by omega)⟩

/-- Writing keeps the canonical form. -/
theorem Memory.wf_write {m : Memory} (hm : m.wf = true) (a : Nat) (b : Byte) : (m.write a b).wf = true :=
  Memory.wfFrom_write hm (Nat.zero_le a) b

theorem Memory.wfFrom_filter {lo : Nat} {m : Memory} (hm : Memory.wfFrom lo m = true) (p : Host.Cell → Bool) :
    Memory.wfFrom lo (m.filter p) = true := by
  induction m generalizing lo with
  | nil => rfl
  | cons c rest ih =>
    obtain ⟨k, d⟩ := c
    have hw := (Memory.wfFrom_cons lo k d rest).1 hm
    by_cases hp : p (k, d) = true
    · rw [List.filter_cons_of_pos hp, Memory.wfFrom_cons]; exact ⟨hw.1, hw.2.1, ih hw.2.2⟩
    · rw [List.filter_cons_of_neg hp]; exact Memory.wfFrom_mono (by omega) (ih hw.2.2)

theorem Memory.read_filter {lo : Nat} {m : Memory} (hm : Memory.wfFrom lo m = true) (p : Nat → Bool) (a : Nat) :
    Memory.read (m.filter fun c => p c.1) a = if p a = true then m.read a else unlistedByte := by
  induction m generalizing lo with
  | nil => simp
  | cons c rest ih =>
    obtain ⟨k, d⟩ := c
    have hw := (Memory.wfFrom_cons lo k d rest).1 hm
    by_cases hp : p k = true
    · rw [List.filter_cons_of_pos (by simpa using hp), Memory.read_cons, Memory.read_cons, ih hw.2.2]
      by_cases hk : k = a
      · rw [if_pos hk, if_pos hk, if_pos (hk ▸ hp)]
      · rw [if_neg hk, if_neg hk]
    · rw [List.filter_cons_of_neg (by simpa using hp), ih hw.2.2, Memory.read_cons]
      by_cases hk : k = a
      · rw [if_neg (hk ▸ hp), if_neg (hk ▸ hp)]
      · rw [if_neg hk]

theorem Memory.wf_foldl_write (cs : List Host.Cell) {m : Memory} (hm : m.wf = true) :
    (cs.foldl (fun m c => m.write c.1 c.2) m).wf = true := by
  induction cs generalizing m with
  | nil => exact hm
  | cons c rest ih => exact ih (Memory.wf_write hm c.1 c.2)

theorem Memory.read_foldl_write {lo : Nat} {cs : Memory} (hc : Memory.wfFrom lo cs = true) {m : Memory}
    (hm : m.wf = true) (a : Nat) :
    (cs.foldl (fun m c => m.write c.1 c.2) m).read a = if cs.read a = unlistedByte then m.read a else cs.read a := by
  induction cs generalizing m lo with
  | nil => simp
  | cons c rest ih =>
    obtain ⟨k, d⟩ := c
    have hw := (Memory.wfFrom_cons lo k d rest).1 hc
    rw [List.foldl_cons, ih hw.2.2 (Memory.wf_write hm k d), Memory.read_write hm, Memory.read_cons]
    by_cases hk : k = a
    · have : Memory.read rest a = unlistedByte := Memory.read_below hw.2.2 (by omega)
      rw [if_pos this, if_pos hk.symm, if_pos hk, if_neg hw.2.1]
    · rw [if_neg hk, if_neg (Ne.symm hk)]

/-- A blend is canonical. -/
theorem Memory.wf_blend (p : Nat → Bool) (new : Memory) {old : Memory} (ho : old.wf = true) :
    (Memory.blend p new old).wf = true :=
  Memory.wf_foldl_write _ (Memory.wfFrom_filter ho _)

/-- A blend reads as the new memory at the chosen indices and as the old one elsewhere. -/
theorem Memory.read_blend (p : Nat → Bool) {new old : Memory} (hn : new.wf = true) (ho : old.wf = true) (a : Nat) :
    (Memory.blend p new old).read a = if p a = true then new.read a else old.read a := by
  unfold Memory.blend
  rw [Memory.read_foldl_write (Memory.wfFrom_filter hn _) (Memory.wfFrom_filter ho _),
    Memory.read_filter hn, Memory.read_filter (p := fun k => !p k) ho]
  by_cases hp : p a = true
  · by_cases hz : new.read a = unlistedByte <;> simp [hp, hz]
  · simp [hp]

theorem Memory.ext_from {lo : Nat} {m m' : Memory} (hm : Memory.wfFrom lo m = true) (hm' : Memory.wfFrom lo m' = true)
    (h : ∀ a, m.read a = m'.read a) : m = m' := by
  induction m generalizing m' lo with
  | nil =>
    cases m' with
    | nil => rfl
    | cons c rest =>
      obtain ⟨k, d⟩ := c
      have hw := (Memory.wfFrom_cons lo k d rest).1 hm'
      have := h k
      rw [Memory.read_nil, Memory.read_cons, if_pos rfl] at this
      exact absurd this.symm hw.2.1
  | cons c rest ih =>
    obtain ⟨k, d⟩ := c
    have hw := (Memory.wfFrom_cons lo k d rest).1 hm
    cases m' with
    | nil =>
      have := h k
      rw [Memory.read_nil, Memory.read_cons, if_pos rfl] at this
      exact absurd this hw.2.1
    | cons c' rest' =>
      obtain ⟨k', d'⟩ := c'
      have hw' := (Memory.wfFrom_cons lo k' d' rest').1 hm'
      have hk : k = k' := by
        by_contra hne
        rcases Nat.lt_or_gt_of_ne hne with hlt | hgt
        · have := h k
          rw [Memory.read_cons, if_pos rfl, Memory.read_cons, if_neg (by omega),
            Memory.read_below hw'.2.2 (by omega)] at this
          exact hw.2.1 this
        · have := h k'
          rw [Memory.read_cons, if_neg (by omega), Memory.read_cons, if_pos rfl,
            Memory.read_below hw.2.2 (by omega)] at this
          exact hw'.2.1 this.symm
      subst hk
      have hd : d = d' := by simpa [Memory.read_cons] using h k
      subst hd
      congr 1
      refine ih hw.2.2 hw'.2.2 fun a => ?_
      by_cases ha : a < k + 1
      · rw [Memory.read_below hw.2.2 ha, Memory.read_below hw'.2.2 ha]
      · have := h a
        rwa [Memory.read_cons, if_neg (by omega), Memory.read_cons, if_neg (by omega)] at this

/-- Canonical memories that read alike are equal. -/
theorem Memory.ext_of_wf {m m' : Memory} (hm : m.wf = true) (hm' : m'.wf = true) (h : ∀ a, m.read a = m'.read a) :
    m = m' :=
  Memory.ext_from hm hm' h

end Sys2Proof.Machine
end

