-- ==== Sys2Proof/Laws/Packer.lean ====
section
/-! SUPPORT. The masks as arithmetic, and what the cursor, the packer and the unpacker do when the cells are there and
when they are not, and what the byte loops over `PAY` do: one lemma per shared operation, for later proofs to cite. -/

namespace Sys2Proof.Machine

/-! ### Masks and chunks -/

theorem lowOnes_toNat (n : Fin 9) : (lowOnes n).toNat = 2 ^ n.val - 1 := by
  revert n; decide

theorem highMask_and_toNat : ∀ (n : Fin 9) (b : Byte), (b &&& highMask n).toNat = b.toNat / 2 ^ n.val * 2 ^ n.val := by
  decide +kernel

theorem chunkOf_eq_mod (b : Byte) (bw : Fin 9) : chunkOf b bw = b.toNat % 2 ^ bw.val := by
  rw [chunkOf, BitVec.toNat_and, lowOnes_toNat, Nat.and_two_pow_sub_one_eq_mod]

theorem lowChunk_toNat (c : Nat) (bw : Fin 9) : (BitVec.ofNat 8 c &&& lowOnes bw).toNat = c % 2 ^ bw.val := by
  rw [BitVec.toNat_and, lowOnes_toNat, Nat.and_two_pow_sub_one_eq_mod, BitVec.toNat_ofNat]
  exact Nat.mod_mod_of_dvd _ (Nat.pow_dvd_pow 2 (by omega))

/-- The new value of a cell: its high bits kept, its low `bw` bits the chunk. -/
theorem mergeChunk_toNat (old : Byte) (c : Nat) (bw : Fin 9) :
    (mergeChunk old c bw).toNat = replaceLow old bw.val (c % 2 ^ bw.val) := by
  rw [mergeChunk, BitVec.toNat_or, highMask_and_toNat, lowChunk_toNat, replaceLow, Nat.mul_comm (old.toNat / _),
    Nat.two_pow_add_eq_or_of_lt (Nat.mod_lt _ (Nat.two_pow_pos _))]

/-- `LOWONES` and `HIGHMASK` have an operand exactly when it is at most 8. -/
theorem maskWidth_eq_some (n : BitVec 4) (h : n.toNat ≤ 8) : maskWidth n = some ⟨n.toNat, by omega⟩ := by
  rw [maskWidth, dif_pos h]

theorem maskWidth_eq_none (n : BitVec 4) (h : ¬n.toNat ≤ 8) : maskWidth n = none := by
  rw [maskWidth, dif_neg h]

theorem legalWidth_eq_some (bw : BitVec 4) (h : 1 ≤ bw.toNat) (h' : bw.toNat ≤ 7) :
    legalWidth bw = some ⟨bw.toNat, by omega⟩ := by
  rw [legalWidth, dif_pos ⟨h, h'⟩]

theorem legalWidth_eq_none (bw : BitVec 4) (h : ¬(1 ≤ bw.toNat ∧ bw.toNat ≤ 7)) : legalWidth bw = none :=
  dif_neg h

theorem legalWidth_isSome (bw : BitVec 4) : (legalWidth bw).isSome = true ↔ 1 ≤ bw.toNat ∧ bw.toNat ≤ 7 := by
  by_cases h : 1 ≤ bw.toNat ∧ bw.toNat ≤ 7
  · rw [legalWidth_eq_some bw h.1 h.2]; simpa using h
  · rw [legalWidth_eq_none bw h]; simpa using h

/-! ### The cursor -/

/-- R24: no grid has 2^34 cells, so `CUR` cannot overflow its width. -/
theorem gridSize_lt (s : State) : s.gridSize < 2 ^ 34 := by
  have h := s.gridH.isLt
  have w := s.gridW.isLt
  have : s.gridH.toNat * s.gridW.toNat ≤ 65535 * 65535 := Nat.mul_le_mul (by omega) (by omega)
  unfold State.gridSize Config.channels
  omega

theorem next_of_lt (s : State) (h : s.cur.toNat < s.gridSize) :
    next s = .ok (s.cur.toNat, s.grid.read s.cur.toNat) { s with cur := BitVec.ofNat 34 (s.cur.toNat + 1) } := by
  simp [next, State.exhausted, h]

theorem next_of_ge (s : State) (h : s.gridSize ≤ s.cur.toNat) : next s = .raise .cursorExhausted s := by
  simp [next, State.exhausted, h]

theorem cursor_toNat (s : State) {n : Nat} (h : n ≤ s.gridSize) : (BitVec.ofNat 34 n).toNat = n := by
  have := gridSize_lt s
  rw [BitVec.toNat_ofNat, Nat.mod_eq_of_lt (by omega)]

theorem putChunk_of_lt (c : Nat) (bw : Fin 9) (s : State) (h : s.cur.toNat < s.gridSize) :
    putChunk c bw s = .ok () { s with
      cur := BitVec.ofNat 34 (s.cur.toNat + 1),
      grid := s.grid.write s.cur.toNat (mergeChunk (s.grid.read s.cur.toNat) c bw) } := by
  have hc := cursor_toNat s (n := s.cur.toNat + 1) h
  rw [putChunk, next_of_lt s h]
  simp only [Eff.bind, writeCell]
  rw [if_pos hc.symm]

theorem putChunk_of_ge (c : Nat) (bw : Fin 9) (s : State) (h : s.gridSize ≤ s.cur.toNat) :
    putChunk c bw s = .raise .cursorExhausted s := by
  rw [putChunk, next_of_ge s h]; rfl

theorem getChunk_of_lt (bw : Fin 9) (s : State) (h : s.cur.toNat < s.gridSize) :
    getChunk bw s = .ok ((s.grid.read s.cur.toNat).toNat % 2 ^ bw.val)
      { s with cur := BitVec.ofNat 34 (s.cur.toNat + 1) } := by
  rw [getChunk, next_of_lt s h]
  simp only [Eff.bind, chunkOf_eq_mod]

theorem getChunk_of_ge (bw : Fin 9) (s : State) (h : s.gridSize ≤ s.cur.toNat) :
    getChunk bw s = .raise .cursorExhausted s := by
  rw [getChunk, next_of_ge s h]; rfl

/-! ### The packer -/

/-- The grid the packer's loop leaves: `left` chunks of `v` from cell `k` on. -/
def packGrid (bw : Fin 9) : Nat → Nat → Nat → Memory → Memory
  | 0, _, _, g => g
  | left + 1, k, v, g =>
    packGrid bw left (k + 1) (v >>> bw.val) (g.write k (mergeChunk (g.read k) (v % 2 ^ bw.val) bw))

theorem packGrid_wf (bw : Fin 9) (left k v : Nat) {g : Memory} (hg : g.wf = true) :
    (packGrid bw left k v g).wf = true := by
  induction left generalizing k v g with
  | zero => exact hg
  | succ left ih => exact ih _ _ (Memory.wf_write hg _ _)

/-- Cell by cell: a chunk in each of the `left` cells, every other cell as before. -/
theorem packGrid_read (bw : Fin 9) (left k v : Nat) {g : Memory} (hg : g.wf = true) (a : Nat) :
    ((packGrid bw left k v g).read a).toNat =
      if k ≤ a ∧ a < k + left then replaceLow (g.read a) bw.val (chunk v bw.val (a - k)) else (g.read a).toNat := by
  induction left generalizing k v g with
  | zero => rw [if_neg (by omega)]; rfl
  | succ left ih =>
    rw [packGrid, ih _ _ (Memory.wf_write hg _ _), Memory.read_write hg]
    by_cases ha : a = k
    · subst ha
      rw [if_neg (by omega), if_pos rfl, if_pos (by omega), mergeChunk_toNat, Nat.mod_mod, Nat.sub_self, chunk]
      simp
    · rw [if_neg ha]
      by_cases hr : k + 1 ≤ a ∧ a < k + 1 + left
      · rw [if_pos hr, if_pos (by omega)]
        congr 1
        obtain ⟨d, rfl⟩ : ∃ d, a = k + 1 + d := ⟨a - (k + 1), by omega⟩
        rw [show k + 1 + d - (k + 1) = d by omega, show k + 1 + d - k = d + 1 by omega, chunk, chunk,
          Nat.shiftRight_eq_div_pow, Nat.div_div_eq_div_mul, ← Nat.pow_add, Nat.add_one_mul, Nat.add_comm]
      · rw [if_neg hr, if_neg (by omega)]

theorem packLoop_of_room (bw : Fin 9) (left i : Nat) (s : State) (h : s.cur.toNat + left ≤ s.gridSize) :
    packLoop bw left i s = .ok () { s with
      v := s.v >>> (left * bw.val), ci := BitVec.ofNat 36 (i + left), cur := BitVec.ofNat 34 (s.cur.toNat + left),
      grid := packGrid bw left s.cur.toNat s.v s.grid } := by
  induction left generalizing i s with
  | zero => simp [packLoop, packGrid]
  | succ left ih =>
    rw [packLoop, putChunk_of_lt _ _ _ (by show s.cur.toNat < s.gridSize; omega)]
    simp only [Eff.bind]
    have hc := cursor_toNat s (n := s.cur.toNat + 1) (by omega)
    rw [ih]
    · simp only [hc, packGrid]
      rw [show s.cur.toNat + 1 + left = s.cur.toNat + (left + 1) by omega, show i + 1 + left = i + (left + 1) by omega,
        Nat.shiftRight_eq_div_pow, Nat.shiftRight_eq_div_pow, Nat.shiftRight_eq_div_pow, Nat.div_div_eq_div_mul,
        ← Nat.pow_add, Nat.add_one_mul, Nat.add_comm bw.val]
    · show (BitVec.ofNat 34 (s.cur.toNat + 1)).toNat + left ≤ s.gridSize
      rw [hc]; omega

/-- `Pack` where the cells are there (R162). -/
theorem pack_of_room (val n : Nat) (bw : Fin 9) (s : State) (h : s.cur.toNat + n ≤ s.gridSize) :
    pack val n bw s = .ok () { s with
      v := val >>> (n * bw.val), nc := BitVec.ofNat 36 n, ci := BitVec.ofNat 36 n,
      cur := BitVec.ofNat 34 (s.cur.toNat + n), grid := packGrid bw n s.cur.toNat val s.grid } := by
  rw [pack, packLoop_of_room _ _ _ _ (by exact h)]
  simp

theorem packLoop_of_short (bw : Fin 9) (left i : Nat) (s : State) (h : s.gridSize < s.cur.toNat + left) (hl : 0 < left) :
    ∃ t, packLoop bw left i s = .raise .cursorExhausted t := by
  induction left generalizing i s with
  | zero => omega
  | succ left ih =>
    by_cases hc : s.cur.toNat < s.gridSize
    · rw [packLoop, putChunk_of_lt _ _ _ (by exact hc)]
      refine ih _ _ ?_ (by omega)
      show s.gridSize < (BitVec.ofNat 34 (s.cur.toNat + 1)).toNat + left
      rw [cursor_toNat s hc]; omega
    · rw [packLoop, putChunk_of_ge _ _ _ (by show s.gridSize ≤ s.cur.toNat; omega)]
      exact ⟨_, rfl⟩

/-- `Pack` where a cell is missing (R162). -/
theorem pack_of_short (val n : Nat) (bw : Fin 9) (s : State) (h : s.gridSize < s.cur.toNat + n) (hn : 0 < n) :
    ∃ t, pack val n bw s = .raise .cursorExhausted t :=
  packLoop_of_short bw n 0 _ h hn

/-! ### The unpacker -/

theorem gridValue_zero (g : Memory) (base bw : Nat) : gridValue g base 0 bw = 0 := rfl

theorem gridValue_succ (g : Memory) (base n bw : Nat) :
    gridValue g base (n + 1) bw = gridValue g base n bw + (g.read (base + n)).toNat % 2 ^ bw * 2 ^ (n * bw) := by
  simp [gridValue, List.range_succ]

/-- `n` chunks of `bw` bits make a number below `2^(n * bw)` (R164). -/
theorem gridValue_lt (g : Memory) (base n bw : Nat) : gridValue g base n bw < 2 ^ (n * bw) := by
  induction n with
  | zero => simp [gridValue_zero]
  | succ n ih =>
    rw [gridValue_succ, Nat.add_one_mul, Nat.pow_add]
    have h : (g.read (base + n)).toNat % 2 ^ bw + 1 ≤ 2 ^ bw := Nat.mod_lt _ (Nat.two_pow_pos _)
    calc gridValue g base n bw + (g.read (base + n)).toNat % 2 ^ bw * 2 ^ (n * bw)
        < ((g.read (base + n)).toNat % 2 ^ bw + 1) * 2 ^ (n * bw) := by rw [Nat.add_one_mul]; omega
      _ ≤ 2 ^ bw * 2 ^ (n * bw) := Nat.mul_le_mul_right _ h
      _ = 2 ^ (n * bw) * 2 ^ bw := Nat.mul_comm _ _

/-- The low bits of the cells are all that the value depends on. -/
theorem gridValue_congr (g g' : Memory) (base n bw : Nat)
    (h : ∀ k, base ≤ k → k < base + n → (g.read k).toNat % 2 ^ bw = (g'.read k).toNat % 2 ^ bw) :
    gridValue g base n bw = gridValue g' base n bw := by
  induction n with
  | zero => rfl
  | succ n ih =>
    rw [gridValue_succ, gridValue_succ, ih fun k hk hk' => h k hk (by omega), h _ (by omega) (by omega)]

theorem unpackLoop_of_room (bw : Fin 9) (left i base : Nat) (s : State) (hb : base + i = s.cur.toNat)
    (h : s.cur.toNat + left ≤ s.gridSize) (hv : s.v = gridValue s.grid base i bw.val) :
    unpackLoop bw left i s = .ok () { s with
      v := gridValue s.grid base (i + left) bw.val, ci := BitVec.ofNat 36 (i + left),
      cur := BitVec.ofNat 34 (s.cur.toNat + left) } := by
  induction left generalizing i s with
  | zero => simp [unpackLoop, ← hv]
  | succ left ih =>
    rw [unpackLoop, getChunk_of_lt _ _ (by show s.cur.toNat < s.gridSize; omega)]
    simp only [Eff.bind]
    have hc := cursor_toNat s (n := s.cur.toNat + 1) (by omega)
    rw [ih]
    · simp only [hc]
      rw [show s.cur.toNat + 1 + left = s.cur.toNat + (left + 1) by omega, show i + 1 + left = i + (left + 1) by omega]
    · show base + (i + 1) = (BitVec.ofNat 34 (s.cur.toNat + 1)).toNat
      rw [hc]; omega
    · show (BitVec.ofNat 34 (s.cur.toNat + 1)).toNat + left ≤ s.gridSize
      rw [hc]; omega
    · show s.v ||| _ = gridValue s.grid base (i + 1) bw.val
      rw [gridValue_succ, hb, hv, Nat.or_comm, Nat.shiftLeft_eq, Nat.mul_comm _ (2 ^ (i * bw.val)),
        ← Nat.two_pow_add_eq_or_of_lt (gridValue_lt _ _ _ _), Nat.add_comm]

/-- `Unpack` where the cells are there (R164): it answers the value the low bits stand for. -/
theorem unpack_of_room (n : Nat) (bw : Fin 9) (s : State) (h : s.cur.toNat + n ≤ s.gridSize) :
    unpack n bw s = .ok (gridValue s.grid s.cur.toNat n bw.val) { s with
      v := gridValue s.grid s.cur.toNat n bw.val, nc := BitVec.ofNat 36 n, ci := BitVec.ofNat 36 n,
      cur := BitVec.ofNat 34 (s.cur.toNat + n) } := by
  rw [unpack, unpackLoop_of_room bw n 0 s.cur.toNat { s with v := 0, nc := BitVec.ofNat 36 n } rfl h rfl]
  simp [Eff.bind]

theorem unpackLoop_of_short (bw : Fin 9) (left i : Nat) (s : State) (h : s.gridSize < s.cur.toNat + left)
    (hl : 0 < left) : ∃ t, unpackLoop bw left i s = .raise .cursorExhausted t := by
  induction left generalizing i s with
  | zero => omega
  | succ left ih =>
    by_cases hc : s.cur.toNat < s.gridSize
    · rw [unpackLoop, getChunk_of_lt _ _ (by exact hc)]
      refine ih _ _ ?_ (by omega)
      show s.gridSize < (BitVec.ofNat 34 (s.cur.toNat + 1)).toNat + left
      rw [cursor_toNat s hc]; omega
    · rw [unpackLoop, getChunk_of_ge _ _ (by show s.gridSize ≤ s.cur.toNat; omega)]
      exact ⟨_, rfl⟩

/-- `Unpack` where a cell is missing (R164). -/
theorem unpack_of_short (n : Nat) (bw : Fin 9) (s : State) (h : s.gridSize < s.cur.toNat + n) (hn : 0 < n) :
    ∃ t, unpack n bw s = .raise .cursorExhausted t := by
  obtain ⟨t, ht⟩ := unpackLoop_of_short bw n 0 { s with v := 0, nc := BitVec.ofNat 36 n } h hn
  exact ⟨t, by rw [unpack, ht]; rfl⟩

/-! ### Room -/

theorem needRoom_of_room (n : Nat) (s : State) (h : s.cur.toNat + n ≤ s.gridSize) : needRoom n s = .ok () s := by
  rw [needRoom, if_neg (by omega)]

theorem needRoom_of_short (n : Nat) (s : State) (h : s.gridSize < s.cur.toNat + n) :
    needRoom n s = .raise .cursorExhausted s := by
  rw [needRoom, if_pos (by omega)]

/-! ### The byte loops of `X.RUN` and `D.PAY` -/

/-- Storing `f i` at each index `i` of a range of `PAY`, as the two loops do. -/
def fillPay (f : Nat → Byte → Byte) : Nat → Nat → Memory → Memory
  | 0, _, m => m
  | left + 1, i, m => fillPay f left (i + 1) (m.write i (f i (m.read i)))

theorem fillPay_wf (f : Nat → Byte → Byte) (left i : Nat) {m : Memory} (hm : m.wf = true) :
    (fillPay f left i m).wf = true := by
  induction left generalizing i m with
  | zero => exact hm
  | succ left ih => exact ih _ (Memory.wf_write hm _ _)

theorem fillPay_read (f : Nat → Byte → Byte) (left i : Nat) {m : Memory} (hm : m.wf = true) (a : Nat) :
    (fillPay f left i m).read a = if i ≤ a ∧ a < i + left then f a (m.read a) else m.read a := by
  induction left generalizing i m with
  | zero => rw [if_neg (by omega)]; rfl
  | succ left ih =>
    rw [fillPay, ih _ (Memory.wf_write hm _ _), Memory.read_write hm]
    by_cases ha : a = i
    · subst ha; rw [if_neg (by omega), if_pos rfl, if_pos (by omega)]
    · rw [if_neg ha]
      by_cases hr : i + 1 ≤ a ∧ a < i + 1 + left
      · rw [if_pos hr, if_pos (by omega)]
      · rw [if_neg hr, if_neg (by omega)]

/-- The loop of R143 changes `PAY` alone. -/
theorem xorLoop_eq (left i : Nat) (s : State) :
    xorLoop left i s = { s with pay := fillPay (fun j b => s.xorByte j b) left i s.pay } := by
  induction left generalizing i s with
  | zero => rfl
  | succ left ih => rw [xorLoop, ih]; rfl

/-- The loop of R189 changes `PAY` alone. -/
theorem storeLoop_eq (val size left i : Nat) (s : State) :
    storeLoop val size left i s = { s with pay := fillPay (fun j _ => s.veil j (byteAt val size j)) left i s.pay } := by
  induction left generalizing i s with
  | zero => rfl
  | succ left ih => rw [storeLoop, ih]; rfl

end Sys2Proof.Machine
end

