-- ==== Sys2Proof/Laws/PerInstr.lean ====
section
/-! SUPPORT. The statements made of every instruction, one lemma per constructor of `Instr`. -/

/-- Family `EncWf`: the word an instruction is encoded as is well formed (R90, R91, R24). -/
def Sys2Proof.Laws.EncWf.Statement (i : Sys2Proof.Instr) : Prop := (Sys2Proof.encode i).wellFormed = true

namespace Sys2Proof.Laws.EncWf

theorem encode : Statement .encode := rfl
theorem decode : Statement .decode := rfl
theorem capacity : Statement .capacity := rfl
theorem xorapply : Statement .xorapply := rfl
theorem lowones : Statement .lowones := rfl
theorem highmask : Statement .highmask := rfl
theorem idle : Statement .idle := rfl
theorem eCheck : Statement .eCheck := rfl
theorem ePro : Statement .ePro := rfl
theorem eLen : Statement .eLen := rfl
theorem ePay : Statement .ePay := rfl
theorem dPro : Statement .dPro := rfl
theorem dLen : Statement .dLen := rfl
theorem dPay : Statement .dPay := rfl
theorem xRun : Statement .xRun := rfl
theorem qRun : Statement .qRun := rfl

end Sys2Proof.Laws.EncWf
end

