-- ==== Sys2Proof/Tests/Slice0.lean ====
section
/-! SUPPORT. Tests of the decoder and of single steps, with expected values from spec/95_test_vectors.md and the rules named,
and for every statement of Certificates/Slice0/Obligations.lean with hypotheses a state that meets them. -/

set_option Elab.async false

namespace Sys2Proof.Tests

open Sys2Proof Sys2Proof.Machine

/-! ### Helpers -/

/-- The memory that holds the listed bytes from index 0. -/
def mem (bs : List Nat) : Memory :=
  (bs.zipIdx.filter fun p => p.1 != 0).map fun p => (p.2, BitVec.ofNat 8 p.1)

/-- The bytes at indices `from .. from + n - 1`. -/
def bytes (m : Memory) (from' n : Nat) : List Nat := (List.range n).map fun i => (m.read (from' + i)).toNat

/-- `f` of the next state, none for a fault or a refusal. -/
def after {α : Type} (x : Host.Outcome State Fault Refusal) (f : State → α) : Option α :=
  match x with
  | .next s => some (f s)
  | .fault _ => none
  | .refused _ => none

theorem next_of_after {α : Type} {x : Host.Outcome State Fault Refusal} {f : State → α} {a : α}
    (h : after x f = some a) : ∃ t, x = .next t ∧ f t = a := by
  cases x with
  | next s => exact ⟨s, rfl, Option.some.inj h⟩
  | fault r => exact absurd h (by simp [after])
  | refused r => exact absurd h (by simp [after])

/-- A busy state about to run phase `p` of a command on an `h` by `w` grid with the listed cells. -/
def inPhase (p : BitVec 4) (h w : Nat) (cells : List Nat) : State :=
  { State.reset with run := .busy, phase := p, gridH := BitVec.ofNat 16 h, gridW := BitVec.ofNat 16 w, grid := mem cells }

/-- A state in which no command runs, on an `h` by `w` grid with the listed cells. -/
def atRest (h w : Nat) (cells : List Nat) : State :=
  { State.reset with gridH := BitVec.ofNat 16 h, gridW := BitVec.ofNat 16 w, grid := mem cells }

/-! ### Well-formedness: each check refuses an ill-formed word -/

theorem smoke_rsv : (InstrWord.cmd 0x11#8).wellFormed = false := by decide
theorem smoke_opc_zero : (InstrWord.cmd 0x00#8).wellFormed = false := by decide
theorem smoke_opc_above : (InstrWord.cmd 0x07#8).wellFormed = false := by decide
theorem smoke_phase : (InstrWord.phase 10#4).wellFormed = false := by decide
theorem smoke_instr : ∀ i ∈ [Instr.encode, .decode, .capacity, .xorapply, .lowones, .highmask, .idle, .eCheck, .ePro, .eLen,
    .ePay, .dPro, .dLen, .dPay, .xRun, .qRun], i.wellFormed = true := by decide

/-! ### Decoding: every constructor by a word written out from R91 and R24 -/

def decodesTo (w : InstrWord) (i : Instr) : Bool :=
  match decode w with
  | .ok j => decide (i = j)
  | .error _ => false

theorem decode_encode : decodesTo (.cmd 0b00000001#8) .encode = true := by decide
theorem decode_decode : decodesTo (.cmd 0b00000010#8) .decode = true := by decide
theorem decode_capacity : decodesTo (.cmd 0b00000011#8) .capacity = true := by decide
theorem decode_xorapply : decodesTo (.cmd 0b00000100#8) .xorapply = true := by decide
theorem decode_lowones : decodesTo (.cmd 0b00000101#8) .lowones = true := by decide
theorem decode_highmask : decodesTo (.cmd 0b00000110#8) .highmask = true := by decide
theorem decode_idle : decodesTo (.phase 0b0000#4) .idle = true := by decide
theorem decode_eCheck : decodesTo (.phase 0b0001#4) .eCheck = true := by decide
theorem decode_ePro : decodesTo (.phase 0b0010#4) .ePro = true := by decide
theorem decode_eLen : decodesTo (.phase 0b0011#4) .eLen = true := by decide
theorem decode_ePay : decodesTo (.phase 0b0100#4) .ePay = true := by decide
theorem decode_dPro : decodesTo (.phase 0b0101#4) .dPro = true := by decide
theorem decode_dLen : decodesTo (.phase 0b0110#4) .dLen = true := by decide
theorem decode_dPay : decodesTo (.phase 0b0111#4) .dPay = true := by decide
theorem decode_xRun : decodesTo (.phase 0b1000#4) .xRun = true := by decide
theorem decode_qRun : decodesTo (.phase 0b1001#4) .qRun = true := by decide

/-- 95_test_vectors.md I1 to I4, and the reserved phase codes of R24: refused, by name. -/
theorem decode_refuses :
    decode (.cmd 0x00#8) = .error (.unassignedOpc 0#4) ∧ decode (.cmd 0x07#8) = .error (.unassignedOpc 7#4) ∧
    decode (.cmd 0x11#8) = .error (.reservedBits 1#4) ∧ decode (.cmd 0xFF#8) = .error (.reservedBits 15#4) ∧
    decode (.phase 0b1010#4) = .error (.reservedPhase 10#4) := ⟨rfl, rfl, rfl, rfl, rfl⟩

/-- Table words: a command in a byte, a phase in four bits, a phase in a byte no command has. -/
theorem table_words :
    decodeTableWord 8 5 = some .lowones ∧ decodeTableWord 4 5 = some .dPro ∧ decodeTableWord 8 9 = some .qRun ∧
    decodeTableWord 8 0x13 = none ∧ decodeTableWord 4 12 = none := by decide

/-- The next step after reset runs the instruction placed: `CAPACITY` from the host's write, `Q.RUN` from `STATUS.PHASE`. -/
theorem placed_words_run :
    after (step (State.reset.withFetchWord 8 3)) (fun t => (t.cmd, t.run, t.phase)) = some (3#8, .busy, 9#4) ∧
    after (step (State.reset.withFetchWord 4 9)) (fun t => (t.run, t.fault)) = some (.fault, some .invalidBitWidth) := by
  decide

/-! ### Commands (R200): STATE, PHASE and CMD after the write, and a write while BUSY -/

/-- P1 up to its `ENCODE`; then P5, the write of 0x02 that a running command ignores. -/
theorem test_encode_issue :
    after (exec .encode { State.reset with fault := some .illegalCommand, run := .fault, result := 9#64 })
      (fun t => (t.run, t.phase, t.fault, t.result)) = some (.busy, 1#4, none, 0#64) := by decide
theorem test_decode_ignored_while_busy :
    after (exec .decode (inPhase 2#4 1 2 [])) (fun t => (t.phase, t.cmd)) = some (2#4, 0#8) := by decide
theorem test_decode_issue :
    after (exec .decode State.reset) (fun t => (t.run, t.phase)) = some (.busy, 5#4) := by decide
theorem test_capacity_issue :
    after (exec .capacity State.reset) (fun t => (t.run, t.phase)) = some (.busy, 9#4) := by decide
theorem test_xorapply_issue :
    after (exec .xorapply State.reset) (fun t => (t.run, t.phase)) = some (.busy, 8#4) := by decide
/-- I5: the accepted write clears the failure before it. -/
theorem test_lowones_issue :
    after (exec .lowones { State.reset with run := .fault, fault := some .illegalCommand, arg := 3#4 })
      (fun t => (t.run, t.fault, t.arg)) = some (.busy, none, 3#4) := by decide
theorem test_highmask_issue :
    after (exec .highmask State.reset) (fun t => (t.run, t.phase)) = some (.busy, 9#4) := by decide
/-- I3: `RSV` must be 0; the write is `HostWrite(0, 0x11)`. -/
theorem test_illegal_command :
    after (step { State.reset with host := [.write 0 0x11] }) (fun t => (t.run, t.fault, (registerValue 1 t)))
      = some (.fault, some .illegalCommand, some 3#64) := by decide

/-! ### The phases, one step each -/

theorem test_idle : after (exec .idle State.reset) id = some State.reset := by decide

/-- V2: `Available(45, 3) = 9`, a key of two bytes, five payload bytes. -/
theorem test_eCheck :
    after (exec .eCheck { inPhase 1#4 3 5 [] with bwIn := 3#4, keyCtl := 1#1, keyLen := 2#32, payLen := 5#32 })
      (fun t => (t.phase, t.bw, t.len, t.keyok)) = some (2#4, 3#4, 5#32, true) := by decide
/-- E6: the key is checked before the capacity. -/
theorem test_eCheck_key_first :
    after (exec .eCheck { inPhase 1#4 3 5 [] with bwIn := 3#4, keyCtl := 1#1, payLen := 100#32 })
      (fun t => t.fault) = some (some .invalidKey) := by decide
/-- V2: cells A0 .. A5 take bits 1, 1, 0, 1, 1, 1; cell 6 stays. -/
theorem test_ePro :
    after (exec .ePro { inPhase 2#4 1 3 [0xA0, 0xA1, 0xA2, 0xA3, 0xA4, 0xA5, 0xA6] with bw := 3#4, keyok := true })
      (fun t => (t.phase, t.cur.toNat, t.pro, bytes t.grid 0 7))
      = some (3#4, 6, 0b111011#6, [0xA1, 0xA1, 0xA2, 0xA3, 0xA5, 0xA5, 0xA6]) := by decide +kernel
/-- V3: `LEN = 2` at `bw = 7` on cells FF. -/
theorem test_eLen :
    after (exec .eLen { inPhase 3#4 2 2 (List.replicate 12 0xFF) with bw := 7#4, len := 2#32, cur := 6#34 })
      (fun t => (t.phase, t.cur.toNat, bytes t.grid 5 7))
      = some (4#4, 11, [0xFF, 0x82, 0x80, 0x80, 0x80, 0x80, 0xFF]) := by decide +kernel
/-- R176's example: `LEN = 0x80000000` at `bw = 7` gives chunks 0, 0, 0, 0, 8. -/
theorem test_eLen_top_bit :
    after (exec .eLen { inPhase 3#4 2 2 [] with bw := 7#4, len := 0x80000000#32, cur := 6#34 })
      (fun t => bytes t.grid 6 5) = some [0, 0, 0, 0, 8] := by decide +kernel
/-- V6: `12 34 56` at `bw = 5`. -/
theorem test_ePay :
    after (exec .ePay { inPhase 4#4 2 5 [] with bw := 5#4, len := 3#32, cur := 13#34, pay := mem [0x12, 0x34, 0x56] })
      (fun t => (t.run, t.cur.toNat, t.bwOut, bytes t.grid 13 6))
      = some (.done, 18, 5#4, [0x16, 0x02, 0x0D, 0x04, 0x01, 0x00]) := by decide +kernel
/-- V4: `80` with key `FF` at `bw = 2` on cells 55. -/
theorem test_ePay_key :
    after (exec .ePay { inPhase 4#4 3 4 (List.replicate 36 0x55) with
        bw := 2#4, len := 1#32, cur := 22#34, pay := mem [0x80], key := mem [0xFF], keyCtl := 1#1, keyLen := 1#32,
        keyok := true, obf := 7#3 })
      (fun t => (t.obfOut, bytes t.grid 21 6)) = some (7#3, [0x55, 0x57, 0x57, 0x57, 0x55, 0x55]) := by decide +kernel
/-- F5: an illegal flag and a width of 0 fail with `CorruptHeader`. -/
theorem test_dPro_flag_first :
    after (exec .dPro (inPhase 5#4 1 2 [0xA0, 0xA0, 0xA2, 0xA2, 0xA5, 0xA5])) (fun t => (t.fault, t.cur.toNat))
      = some (some .corruptHeader, 6) := by decide +kernel
/-- V2 a: the prologue 0b111011 with a key. -/
theorem test_dPro :
    after (exec .dPro { inPhase 5#4 1 2 [0xA1, 0xA1, 0xA2, 0xA3, 0xA5, 0xA5] with keyCtl := 1#1, keyLen := 2#32 })
      (fun t => (t.phase, t.pro, t.obf, t.bw, t.keyok)) = some (6#4, 59#6, 7#3, 3#4, true) := by decide +kernel
/-- F18: cells FF at `bw = 7` give `LEN = 0xFFFFFFFF` and no room. -/
theorem test_dLen_no_room :
    after (exec .dLen { inPhase 6#4 4 4 (List.replicate 48 0xFF) with bw := 7#4, cur := 6#34 })
      (fun t => (t.fault, t.cur.toNat, t.len)) = some (some .cursorExhausted, 11, 0xFFFFFFFF#32) := by decide +kernel
/-- V3: the length cells read back. -/
theorem test_dLen :
    after (exec .dLen { inPhase 6#4 2 4 ([0xFF, 0xFF, 0xFF, 0xFE, 0xFE, 0xFE, 0x82] ++ List.replicate 17 0x80) with
        bw := 7#4, cur := 6#34 })
      (fun t => (t.phase, t.len, t.cur.toNat)) = some (7#4, 2#32, 11) := by decide +kernel
/-- V3: the payload cells AD BD 83 are `DE AD`; index 2 of `PAY` stays. -/
theorem test_dPay :
    after (exec .dPay { inPhase 7#4 2 4 (List.replicate 11 0 ++ [0xAD, 0xBD, 0x83]) with
        bw := 7#4, len := 2#32, cur := 11#34, pay := mem [1, 2, 3] })
      (fun t => (t.run, t.lenOut, t.cur.toNat, bytes t.pay 0 3)) = some (.done, 2#32, 14, [0xDE, 0xAD, 3]) := by
  decide +kernel
/-- V4: with key `7F` the same cells give 00. -/
theorem test_dPay_key :
    after (exec .dPay { inPhase 7#4 3 4 (List.replicate 22 0x54 ++ [0x57, 0x57, 0x57, 0x55]) with
        bw := 2#4, len := 1#32, cur := 22#34, key := mem [0x7F], keyCtl := 1#1, keyLen := 1#32, keyok := true,
        obf := 7#3 })
      (fun t => (t.obfOut, bytes t.pay 0 1)) = some (7#3, [0x00]) := by decide +kernel
/-- X1. -/
theorem test_xRun :
    after (exec .xRun { inPhase 8#4 0 0 [] with
        keyCtl := 1#1, keyLen := 2#32, payLen := 5#32, key := mem [0x5A, 0xA5], pay := mem [0x5A, 1, 2, 3, 4] })
      (fun t => (t.run, bytes t.pay 0 6)) = some (.done, [0x00, 0xA4, 0x58, 0xA6, 0x5E, 0x00]) := by decide +kernel
/-- X8: the key check comes first, also for no bytes. -/
theorem test_xRun_no_key :
    after (exec .xRun (inPhase 8#4 0 0 [])) (fun t => t.fault) = some (some .invalidKey) := by decide
/-- R124's example, and the table of 95_test_vectors.md 2.1. -/
theorem test_qRun_highmask :
    after (exec .qRun { inPhase 9#4 0 0 [] with cmd := 6#8, arg := 3#4 }) (fun t => (t.run, t.result))
      = some (.done, 0xF8#64) := by decide
/-- P3: `Available(0, 7) = -11`. -/
theorem test_qRun_capacity :
    after (exec .qRun { inPhase 9#4 0 4 [] with cmd := 3#8, bwIn := 7#4 }) (fun t => (t.run, t.result))
      = some (.done, 0xFFFFFFFFFFFFFFF5#64) := by decide

/-! ### Taking a failure, reset, the host port -/

/-- R242: `FAULT`, `PHASE`, `STATE`, and nothing else. -/
theorem test_failEntry :
    (failEntry .maskRange { inPhase 9#4 1 2 [7] with arg := 9#4 })
      = { atRest 1 2 [7] with arg := 9#4, run := .fault, fault := some .maskRange } := by decide
/-- R29: the registers, not the memories. -/
theorem test_reset_input :
    after (step { atRest 1 2 [7] with host := [.reset], bwIn := 3#4, run := .done })
      (fun t => (t.bwIn, t.gridH, t.run, bytes t.grid 0 1)) = some (0#4, 0#16, .idle, [7]) := by decide
/-- R21: `KEY_CTL` keeps bit 0. -/
theorem test_host_write :
    after (step { State.reset with host := [.write 6 2] }) (fun t => (t.keyCtl, t.host)) = some (0#1, []) := by decide
/-- R93: `STATUS` while `BUSY` in phase 3 is 0b1101, as a register value. -/
theorem test_status : registerValue 1 (inPhase 3#4 1 1 []) = some 0b1101#64 := by decide

/-! ### Witnesses: states that meet the hypotheses of the statements -/

theorem witness_DecodeAndEncodeAgree : decode (.cmd 1#8) = .ok .encode ∧ decode (.phase 9#4) = .ok .qRun := ⟨rfl, rfl⟩

theorem witness_UnassignedCommandFails :
    (BitVec.ofNat 8 0x10).toNat / 16 ≠ 0 ∧ (BitVec.ofNat 8 0x100).toNat % 16 = 0 ∧ 7 ≤ (BitVec.ofNat 8 0x07).toNat % 16 ∧
    7 ≤ (BitVec.ofNat 8 0x0F).toNat % 16 ∧ State.reset.run ≠ .busy ∧
    ((BitVec.ofNat 8 0x01).toNat / 16 = 0 ∧ 1 ≤ (BitVec.ofNat 8 0x01).toNat % 16 ∧ (BitVec.ofNat 8 0x01).toNat % 16 ≤ 6) ∧
    ((BitVec.ofNat 8 0x106).toNat / 16 = 0 ∧ 1 ≤ (BitVec.ofNat 8 0x106).toNat % 16 ∧ (BitVec.ofNat 8 0x106).toNat % 16 ≤ 6) := by
  decide

theorem witness_CommandStartsCleared : State.reset.run ≠ .busy ∧ decode (.cmd 6#8) = .ok .highmask := ⟨by decide, rfl⟩

theorem witness_WritesWhileBusyIgnored :
    (inPhase 1#4 1 1 []).run = .busy ∧ 0 ≤ 14 ∧ 14 ≤ 14 ∧ isCommand .encode = true := by decide

theorem witness_ReadsWhileBusy :
    (inPhase 2#4 1 1 []).run = .busy ∧ (0 ≤ 14 ∧ 0 ≠ 1 ∧ 0 ≠ 14) ∧ (13 ≤ 14 ∧ 13 ≠ 1 ∧ 13 ≠ 14) := by decide

theorem witness_InputRegisterKeepsLowBits :
    (3, 16) ∈ [(3, 16), (4, 16), (5, 4), (6, 1), (7, 32), (8, 32), (9, 4)] ∧ State.reset.run ≠ .busy ∧ 4 ≠ 3 := by decide

theorem witness_OtherRegisterNumbers :
    State.reset.run ≠ .busy ∧ 1 ∈ [1, 2, 10, 11, 12, 13, 14] ∧ 14 ∈ [1, 2, 10, 11, 12, 13, 14] ∧ 14 < 15 := by decide

theorem witness_ReadsAtRestAnswerRegisters :
    State.reset.run ≠ .busy ∧ (finishCommand State.reset).run ≠ .busy ∧ (failEntry .illegalCommand State.reset).run ≠ .busy ∧
    0 ≤ 14 ∧ 14 ≤ 14 ∧ (0, 0) ∈ [(0, 0), (14, State.reset.cur.toNat)] := by decide

theorem witness_StatusRegisterLayout :
    State.reset.run = RunState.idle ∧ (inPhase 1#4 1 1 []).run = RunState.busy ∧
    (finishCommand State.reset).run = RunState.done ∧ (failEntry .illegalCommand State.reset).run = RunState.fault ∧
    State.reset.fault = none ∧ (failEntry .illegalCommand State.reset).fault = some .illegalCommand := by decide

theorem witness_ResetClearsRegisters : State.reset = State.reset ∧ (atRest 1 2 [7]).run ≠ .busy := by decide

theorem witness_ResetLeavesPrefix : (inPhase 1#4 4 6 [1]).inv = true ∧ (inPhase 1#4 4 6 [1]).run = .busy := by decide

theorem witness_HostStoreReadsBack :
    (atRest 1 1 [7]).run ≠ .busy ∧ (atRest 1 1 [7]).memoriesWf = true ∧ (Space.pay ≠ Space.grid ∨ (0 : Nat) ≠ 0) ∧
    (Space.grid ≠ Space.grid ∨ (1 : Nat) ≠ 0) := by decide

theorem witness_HostMemoryAccessWhileBusyRefused : (inPhase 1#4 1 1 []).run = .busy := by decide

theorem witness_LowonesResult :
    State.reset.run ≠ .busy ∧ { State.reset with cmd := 0x05#8, arg := 8#4 }.cmd = 0x05#8 ∧ (8#4).toNat ≤ 8 ∧ ¬(9#4).toNat ≤ 8 := by decide

theorem witness_HighmaskResult : State.reset.run ≠ .busy ∧ { State.reset with cmd := 0x06#8, arg := 9#4 }.cmd = 0x06#8 := by decide

theorem witness_AvailableIsFloor : 1 ≤ 1 ∧ 7 ≤ 7 := by decide

/-- B5 (`Available(48, 1) = 0`) and the column `bw = 8` at `N = 12` (1). -/
theorem witness_CapacityCheckSuffices :
    (1 ≤ 1 ∧ ((0 : Nat) : Int) ≤ available 48 1) ∧ (8 ≤ 8 ∧ ((1 : Nat) : Int) ≤ available 12 8) := by decide

theorem witness_CapacityResult :
    State.reset.run ≠ .busy ∧ { State.reset with cmd := 0x03#8 }.cmd = 0x03#8 ∧ (1 ≤ (1#4).toNat ∧ (1#4).toNat ≤ 7) ∧
    (1 ≤ (7#4).toNat ∧ (7#4).toNat ≤ 7) ∧ (0#4).toNat < 1 ∧ 7 < (8#4).toNat ∧ 7 < (15#4).toNat := by decide

/-- B5 and B6: a 4 by 4 grid at `bw = 1` takes 0 bytes and not 1. -/
def boundaryState (size : Nat) : State :=
  { atRest 4 4 (List.replicate 48 0x10) with bwIn := 1#4, keyCtl := 1#1, keyLen := 1#32, payLen := BitVec.ofNat 32 size }

theorem witness_CapacityBoundary :
    ((boundaryState 0).run ≠ .busy ∧ 1 ≤ (boundaryState 0).bwIn.toNat ∧ (boundaryState 0).bwIn.toNat ≤ 7 ∧
      ((boundaryState 0).keyPresent = true → (boundaryState 0).keyLen ≠ 0#32) ∧
      ((boundaryState 0).payLen.toNat : Int) ≤ available (boundaryState 0).gridSize (boundaryState 0).bwIn.toNat) ∧
    (((boundaryState 1).payLen.toNat : Int) > available (boundaryState 1).gridSize (boundaryState 1).bwIn.toNat) := by
  decide

/-- 95_test_vectors.md 2.2, `H = 2`, `W = 3`: cell 17 is row 1, column 2, channel 2. -/
theorem witness_CellPositions :
    0 < 3 ∧ (1 < 2 ∧ 2 < 3 ∧ 2 < 3) ∧ 17 < 2 * 3 * 3 ∧ positionOf 3 17 = (1, 2, 2) ∧ linearIndex 3 1 2 2 = 17 := by decide

/-- The last cell of a 1 by 1 grid, and the end of it. -/
theorem witness_NextYieldsOrExhausts :
    { atRest 1 1 [] with cur := 2#34 }.cur.toNat < { atRest 1 1 [] with cur := 2#34 }.gridSize ∧
    { atRest 1 1 [] with cur := 3#34 }.gridSize ≤ { atRest 1 1 [] with cur := 3#34 }.cur.toNat := by decide

theorem witness_PutChunkKeepsHighBits :
    (1 ≤ (1 : Fin 9).val ∧ (1 : Fin 9).val ≤ 7) ∧ (1 ≤ (7 : Fin 9).val ∧ (7 : Fin 9).val ≤ 7) ∧
    (atRest 1 1 [7]).grid.wf = true ∧ (atRest 1 1 [7]).cur.toNat < (atRest 1 1 [7]).gridSize ∧
    { atRest 1 1 [7] with cur := 3#34 }.gridSize ≤ { atRest 1 1 [7] with cur := 3#34 }.cur.toNat := by decide

theorem witness_GetChunkReadsLowBits :
    (1 ≤ (1 : Fin 9).val ∧ (1 : Fin 9).val ≤ 7) ∧ (1 ≤ (7 : Fin 9).val ∧ (7 : Fin 9).val ≤ 7) ∧
    { atRest 1 1 [7] with cur := 2#34 }.cur.toNat < { atRest 1 1 [7] with cur := 2#34 }.gridSize ∧
    { atRest 1 1 [7] with cur := 3#34 }.gridSize ≤ { atRest 1 1 [7] with cur := 3#34 }.cur.toNat := by decide

/-- Both clauses where they meet: three chunks fit three cells, four do not. -/
theorem witness_PackLaysOutChunks :
    (1 ≤ (7 : Fin 9).val ∧ (7 : Fin 9).val ≤ 7) ∧ (atRest 1 1 [7]).grid.wf = true ∧
    (atRest 1 1 [7]).cur.toNat + 3 ≤ (atRest 1 1 [7]).gridSize ∧
    (atRest 1 1 [7]).gridSize < (atRest 1 1 [7]).cur.toNat + 4 ∧ 1 ≤ 4 := by decide

theorem witness_UnpackAccumulatesChunks :
    (1 ≤ (7 : Fin 9).val ∧ (7 : Fin 9).val ≤ 7) ∧ (atRest 1 1 [7]).cur.toNat + 3 ≤ (atRest 1 1 [7]).gridSize ∧
    (2 < 3 ∧ 6 < (7 : Fin 9).val) ∧ (atRest 1 1 [7]).gridSize < (atRest 1 1 [7]).cur.toNat + 4 ∧ 1 ≤ 4 := by decide

theorem witness_UnpackInvertsPack :
    (1 ≤ (3 : Fin 9).val ∧ (3 : Fin 9).val ≤ 7) ∧
    (atRest 1 1 [7]).grid.wf = true ∧ 511 < 2 ^ (3 * (3 : Fin 9).val) ∧
    (atRest 1 1 [7]).cur.toNat + 3 ≤ (atRest 1 1 [7]).gridSize := by decide

theorem witness_NeedRoomForesees :
    { atRest 1 1 [] with cur := 3#34 }.cur.toNat ≤ { atRest 1 1 [] with cur := 3#34 }.gridSize := by decide

theorem witness_PrologueWritten :
    let s := { inPhase 2#4 1 2 [7] with bw := 7#4 }
    s.grid.wf = true ∧ 1 ≤ s.bw.toNat ∧ s.bw.toNat ≤ 7 ∧ s.cur = 0#34 ∧ 6 ≤ s.gridSize := by decide

theorem witness_LengthWritten :
    let s := { inPhase 3#4 2 2 [7] with bw := 6#4, cur := 6#34 }
    s.grid.wf = true ∧ 1 ≤ s.bw.toNat ∧ s.bw.toNat ≤ 7 ∧ s.cur = 6#34 ∧ 6 + lengthChunks s.bw.toNat = s.gridSize := by
  decide

theorem witness_PayloadWritten :
    let s := { inPhase 4#4 2 3 [7] with bw := 4#4, len := 2#32, cur := 14#34, keyok := true, keyLen := 1#32 }
    s.grid.wf = true ∧ 1 ≤ s.bw.toNat ∧ s.bw.toNat ≤ 7 ∧ (s.keyok = true → s.keyLen ≠ 0#32) ∧
    s.cur.toNat + payloadChunks s.len.toNat s.bw.toNat = s.gridSize := by decide

theorem witness_PrologueValidated :
    (inPhase 5#4 1 1 []).cur = 0#34 ∧ (inPhase 5#4 1 1 []).gridSize < 6 ∧ 6 = (inPhase 5#4 1 2 []).gridSize := by decide

theorem witness_LengthRead :
    let s := { inPhase 6#4 1 3 [] with bw := 6#4, cur := 6#34 }
    let r := { inPhase 6#4 2 2 [] with bw := 6#4, cur := 6#34 }
    (1 ≤ s.bw.toNat ∧ s.bw.toNat ≤ 7 ∧ s.cur = 6#34 ∧ s.gridSize < 6 + lengthChunks s.bw.toNat) ∧
    (r.cur = 6#34 ∧ 6 + lengthChunks r.bw.toNat = r.gridSize) := by decide

theorem witness_PayloadStored :
    let s := { inPhase 7#4 2 3 [7] with bw := 4#4, len := 2#32, cur := 14#34, keyok := true, keyLen := 1#32, pay := mem [1] }
    s.pay.wf = true ∧ 1 ≤ s.bw.toNat ∧ s.bw.toNat ≤ 7 ∧ (s.keyok = true → s.keyLen ≠ 0#32) ∧
    s.cur.toNat + payloadChunks s.len.toNat s.bw.toNat = s.gridSize := by decide

theorem witness_UnvalidatedWidthStops :
    ((inPhase 3#4 1 1 []).bw.toNat < 1 ∧ 7 < { inPhase 3#4 1 1 [] with bw := 8#4 }.bw.toNat ∧
      Instr.dPay ∈ [Instr.eLen, Instr.ePay, Instr.dLen, Instr.dPay]) ∧
    (∀ bw ∈ [1#4, 7#4], { inPhase 6#4 1 2 [] with bw := bw, cur := 6#34 }.inv = true) ∧
    { inPhase 2#4 4 4 [] with bw := 1#4, bwIn := 1#4 }.inv = true ∧ (inPhase 6#4 1 2 []).run = .busy ∧
    2 ∈ [2, 3, 4, 6, 7] ∧ 6 ∈ [2, 3, 4, 6, 7] := by decide

/-- X1. -/
def xorState : State :=
  { State.reset with
    keyCtl := 1#1, keyLen := 2#32, payLen := 5#32, key := mem [0x5A, 0xA5], pay := mem [0x5A, 1, 2, 3, 4] }

theorem witness_XorapplyResult :
    State.reset.run ≠ .busy ∧ State.reset.keyCtl = 0#1 ∧ { xorState with keyLen := 0#32 }.keyLen = 0#32 ∧
    xorState.keyCtl = 1#1 ∧ xorState.keyLen ≠ 0#32 ∧ xorState.pay.wf = true := by decide

theorem witness_XorapplyIsSelfInverse :
    xorState.run ≠ .busy ∧ xorState.keyCtl = 1#1 ∧ xorState.keyLen ≠ 0#32 ∧ xorState.pay.wf = true ∧
    4 < xorState.payLen.toNat ∧ xorState.payLen.toNat ≤ 5 := by decide

theorem witness_ToBytesInvertsToInt : 0x010203 < 2 ^ (8 * 3) ∧ 2 < 3 := by decide

/-- V4: one byte with a key at `bw = 2`. -/
def keyedState : State :=
  { atRest 3 4 (List.replicate 36 0x55) with
    bwIn := 2#4, keyCtl := 1#1, keyLen := 1#32, key := mem [0xFF], pay := mem [0x80], payLen := 1#32 }

theorem witness_EncodeClosedForm :
    (keyedState.run ≠ .busy ∧ keyedState.encodable ∧ keyedState.grid.wf = true) ∧ (boundaryState 0).encodable :=
  ⟨⟨by decide, by unfold State.encodable; decide, by decide⟩, by unfold State.encodable; decide⟩

/-- F20: a grid with prologue 1 and an empty payload. -/
def emptyMessage : State := { atRest 4 4 [1] with pay := mem [9] }

theorem witness_DecodeClosedForm :
    emptyMessage.run ≠ .busy ∧ emptyMessage.decodable ∧ emptyMessage.pay.wf = true :=
  ⟨by decide, by unfold State.decodable; decide +kernel, by decide⟩

/-- F19, and F16, whose prologue is 0. -/
theorem witness_DecodeFailsWithFirstCause :
    State.reset.run ≠ .busy ∧ ¬State.reset.decodable ∧ ¬(atRest 4 4 []).decodable :=
  ⟨by decide, by unfold State.decodable; decide +kernel, by unfold State.decodable; decide +kernel⟩

theorem witness_FailedCommandChangesNoMemory :
    ∃ t, (isCommand .lowones = true ∧ { State.reset with arg := 9#4 }.run ≠ .busy) ∧
      runCommand .lowones { State.reset with arg := 9#4 } = .next t ∧ t.run = .fault := by
  obtain ⟨t, h, hr⟩ := next_of_after (x := runCommand .lowones { State.reset with arg := 9#4 }) (f := State.run) (a := .fault)
    (by decide)
  exact ⟨t, by decide, h, hr⟩

theorem witness_EveryCommandEnds : isCommand .decode = true ∧ State.reset.run ≠ .busy := by decide

/-- F15: bits 7 .. 1 of cell 0 and a cell after the payload differ. -/
theorem witness_DecodeIgnoresKeepBits :
    ∃ t, emptyMessage.run ≠ .busy ∧ runCommand .decode emptyMessage = .next t ∧ t.run = .done ∧
      (∀ k, k < 6 → ((mem [0xFF]).read k).toNat % 2 = (emptyMessage.grid.read k).toNat % 2) ∧
      (∀ k, 6 ≤ k → k < t.cur.toNat →
        ((mem [0xFF]).read k).toNat % 2 ^ t.bwOut.toNat = (emptyMessage.grid.read k).toNat % 2 ^ t.bwOut.toNat) := by
  obtain ⟨t, h, hr⟩ := next_of_after (x := runCommand .decode emptyMessage) (f := fun t => (t.run, t.cur, t.bwOut))
    (a := (.done, 38#34, 1#4)) (by decide +kernel)
  obtain ⟨h1, h2⟩ := Prod.mk.inj hr
  obtain ⟨h2, h3⟩ := Prod.mk.inj h2
  refine ⟨t, by decide, h, h1, by decide, ?_⟩
  rw [h2, h3]
  decide +kernel

theorem witness_RoundTrip :
    ∃ t, runCommand .encode keyedState = .next t ∧ t.run ≠ .busy ∧ t.pay.wf = true ∧
      t.keyCtl = keyedState.keyCtl ∧ t.keyLen = keyedState.keyLen ∧ t.key = keyedState.key ∧
      t.cur.toNat ≤ t.gridSize := by
  obtain ⟨t, h, hr⟩ := next_of_after (x := runCommand .encode keyedState)
    (f := fun t => decide (t.run ≠ .busy ∧ t.pay.wf = true ∧ t.keyCtl = keyedState.keyCtl ∧
      t.keyLen = keyedState.keyLen ∧ t.key = keyedState.key ∧ t.cur.toNat ≤ t.gridSize)) (a := true)
    (by decide +kernel)
  exact ⟨t, h, of_decide_eq_true hr⟩

theorem witness_StepRunsDecodedInstruction :
    (State.reset.host = [] ∧ decode (.phase State.reset.phase) = .ok .idle) ∧
    ((inPhase 10#4 1 1 []).host = [] ∧ decode (.phase (inPhase 10#4 1 1 []).phase) = .error (.reservedPhase 10#4)) ∧
    ({ inPhase 10#4 1 1 [] with host := [.wait] }.host = .wait :: [] ∧ { inPhase 10#4 1 1 [] with host := [.wait] }.run = .busy ∧
      { inPhase 10#4 1 1 [] with host := [.advance] }.host = .advance :: []) ∧
    ({ inPhase 1#4 1 1 [] with host := [.wait] }.host = .wait :: [] ∧
      { inPhase 1#4 1 1 [] with host := [.wait] }.run = .busy ∧ decode (.phase 1#4) = .ok .eCheck) ∧
    ({ State.reset with host := [.wait] }.host = .wait :: [] ∧ { State.reset with host := [.wait] }.run ≠ .busy) ∧
    ({ inPhase 1#4 1 1 [] with host := [.advance] }.host = .advance :: []) ∧
    ({ State.reset with host := [.write 0 6] }.host = .write 0 6 :: [] ∧ decode (.cmd (BitVec.ofNat 8 6)) = .ok .highmask) ∧
    ({ State.reset with host := [.write 0 0x11] }.host = .write 0 0x11 :: [] ∧
      { State.reset with host := [.write 0 0x11] }.run ≠ .busy ∧
      decode (.cmd (BitVec.ofNat 8 0x11)) = .error (.reservedBits 1#4)) ∧
    ({ State.reset with host := [.reset] }.host = .reset :: [] ∧ HostAction.reset ≠ .wait) ∧ State.reset.run ≠ .busy :=
  ⟨⟨rfl, rfl⟩, ⟨rfl, rfl⟩, ⟨rfl, rfl, rfl⟩, ⟨rfl, rfl, rfl⟩, ⟨rfl, by decide⟩, rfl, ⟨rfl, rfl⟩, ⟨rfl, by decide, rfl⟩, ⟨rfl, by decide⟩, by decide⟩

theorem witness_PhasesFollowTheirOrder :
    ∃ t, (inPhase 1#4 4 6 [1]).inv = true ∧ (inPhase 1#4 4 6 [1]).run = .busy ∧ runPhase (inPhase 1#4 4 6 [1]) = .next t := by
  obtain ⟨t, h, -⟩ := next_of_after (x := runPhase (inPhase 1#4 4 6 [1])) (f := State.run) (a := .fault) (by decide)
  exact ⟨t, by decide, by decide, h⟩

/-- In phase 1, which is none of 2, 3, 4, 7, 8. -/
theorem witness_PhasesKeepInputs :
    ∃ t, runPhase (inPhase 1#4 4 6 [1]) = .next t ∧ (inPhase 1#4 4 6 [1]).phase.toNat ∉ [2, 3, 4] ∧
      (inPhase 1#4 4 6 [1]).phase.toNat ∉ [7, 8] := by
  obtain ⟨t, h, -⟩ := next_of_after (x := runPhase (inPhase 1#4 4 6 [1])) (f := State.run) (a := .fault) (by decide)
  exact ⟨t, h, by decide, by decide⟩

theorem witness_StepKeepsInvariant :
    ∃ t, (inPhase 1#4 4 6 [1]).inv = true ∧ step (inPhase 1#4 4 6 [1]) = .next t := by
  obtain ⟨t, h, -⟩ := next_of_after (x := step (inPhase 1#4 4 6 [1])) (f := State.run) (a := .fault) (by decide)
  exact ⟨t, by decide, h⟩

theorem witness_OutcomePersists :
    ∃ t, State.reset.inv = true ∧ State.reset.run ≠ .busy ∧ step State.reset = .next t ∧
      (∀ c rest, State.reset.host ≠ .write 0 c :: rest) ∧ (∀ rest, State.reset.host ≠ .reset :: rest) :=
  ⟨State.reset, by decide, by decide, rfl, fun _ _ => nofun, fun _ => nofun⟩

/-- Prologues at the ends of the ranges: 63 and 7 pass, 0 and 56 have width 0, 8 and 55 another flag. -/
theorem witness_FourteenProloguesPass :
    xorState.keyUsable = true ∧ (63 < 64 ∧ 63 / 8 = 7 ∧ 63 % 8 ≠ 0) ∧ (7 / 8 = 0 ∧ 7 % 8 ≠ 0) ∧ (0 / 8 = 0 ∧ 0 % 8 = 0) ∧
    (56 / 8 = 7 ∧ 56 % 8 = 0) ∧ (8 / 8 ≠ 0 ∧ 8 / 8 ≠ 7) ∧ (55 / 8 ≠ 0 ∧ 55 / 8 ≠ 7) := by decide

theorem witness_StepNeverStopsCore :
    State.reset.inv = true ∧
    step { inPhase 1#4 1 1 [] with host := [.load .grid 0] } = .refused .hostMemoryWhileBusy ∧
    { inPhase 1#4 1 1 [] with host := [.load .grid 0] }.inv = true ∧
    step { State.reset with host := [.read 15] } = .refused (.noSuchRegister 15) :=
  ⟨by decide, rfl, by decide, rfl⟩

end Sys2Proof.Tests
end

/-! The reset input clears every register of R21 and R23 and leaves the memories alone while no command runs (R29, R261). -/

namespace Sys2Proof.Machine

/-- `s` with everything that is not a register of R21 or R23 at its value in `State.reset`. -/
def State.onlyRegisters (s : State) : State :=
  { s with grid := [], pay := [], key := [], host := [], readData := 0#64, draws := 0 }

@[simp] theorem onlyRegisters_reset : State.reset.onlyRegisters = State.reset := rfl

@[simp] theorem onlyRegisters_resetInput (s : State) : (resetInput s).onlyRegisters = State.reset := rfl

/-- What register `n` holds depends on the registers alone. -/
theorem registerValue_onlyRegisters (n : Nat) (s : State) : registerValue n s.onlyRegisters = registerValue n s := rfl

theorem registerValue_reset : ∀ n ≤ 14, registerValue n State.reset = some 0#64 := by decide

@[simp] theorem resetInput_key (s : State) : (resetInput s).key = s.key := rfl

theorem resetInput_grid_of_not_busy {s : State} (h : s.run ≠ .busy) : (resetInput s).grid = s.grid := if_neg h

theorem resetInput_pay_of_not_busy {s : State} (h : s.run ≠ .busy) : (resetInput s).pay = s.pay := if_neg h

/-- The two ways to a cleared machine leave the same registers. -/
theorem onlyRegisters_eq_reset {t : State} (h : t = State.reset ∨ ∃ s, t = resetInput s) :
    t.onlyRegisters = State.reset := by
  obtain rfl | ⟨s, rfl⟩ := h
  · exact onlyRegisters_reset
  · exact onlyRegisters_resetInput s

theorem registerValue_of_onlyRegisters_eq_reset {t : State} (h : t.onlyRegisters = State.reset) {n : Nat} (hn : n ≤ 14) :
    registerValue n t = some 0#64 := by
  rw [← registerValue_onlyRegisters, h, registerValue_reset n hn]

/-- The fields no register number reads on its own: those of `STATUS` and `FAULT`, the last command, and R23's registers. -/
theorem fields_of_onlyRegisters_eq_reset {t : State} (h : t.onlyRegisters = State.reset) :
    t.run = .idle ∧ t.phase = 0#4 ∧ t.fault = none ∧ t.cmd = 0#8 ∧ t.bw = 0#4 ∧ t.obf = 0#3 ∧ t.pro = 0#6 ∧
      t.len = 0#32 ∧ t.v = 0 ∧ t.nc = 0#36 ∧ t.ci = 0#36 ∧ t.keyok = false :=
  ⟨congrArg State.run h, congrArg State.phase h, congrArg State.fault h, congrArg State.cmd h, congrArg State.bw h,
    congrArg State.obf h, congrArg State.pro h, congrArg State.len h, congrArg State.v h, congrArg State.nc h,
    congrArg State.ci h, congrArg State.keyok h⟩

/-- Settles O10: reset and the reset input leave the same cleared registers, and no memory is written at rest. -/
theorem resetClearsRegisters : Obligations.ResetClearsRegisters := by
  refine ⟨fun t ht => ?registers, fun s => ?memories, ?width⟩
  case registers =>
    have hreset := onlyRegisters_eq_reset ht
    exact ⟨fun _ hn => registerValue_of_onlyRegisters_eq_reset hreset hn, fields_of_onlyRegisters_eq_reset hreset⟩
  case memories =>
    exact ⟨resetInput_key s, fun h => ⟨resetInput_grid_of_not_busy h, resetInput_pay_of_not_busy h⟩⟩
  case width => exact legalWidth_eq_none _ (by decide)

end Sys2Proof.Machine

/-! R62: the linear index of a cell and its position determine each other. -/

namespace Sys2Proof.Machine

/-- What `positionOf` computes, in the two divisions of R62: by the channels first, then by the columns. -/
theorem positionOf_eq (w k : Nat) : positionOf w k = (k / 3 / w, k / 3 % w, k % 3) := by
  simp only [positionOf, Config.channels, Nat.div_div_eq_div_mul, Nat.mul_comm w]

theorem linearIndex_div_channels (w row col : Nat) {ch : Nat} (hch : ch < 3) :
    linearIndex w row col ch / 3 = row * w + col := by
  simp only [linearIndex, Config.channels]
  omega

theorem linearIndex_mod_channels (w row col : Nat) {ch : Nat} (hch : ch < 3) :
    linearIndex w row col ch % 3 = ch := by
  simp only [linearIndex, Config.channels]
  omega

theorem positionOf_linearIndex {w row col ch : Nat} (hcol : col < w) (hch : ch < 3) :
    positionOf w (linearIndex w row col ch) = (row, col, ch) := by
  have hw : 0 < w := by omega
  have hdiv : (row * w + col) / w = row := by
    rw [Nat.mul_comm, Nat.mul_add_div hw, Nat.div_eq_of_lt hcol, Nat.add_zero]
  have hmod : (row * w + col) % w = col := Nat.mul_add_mod_of_lt hcol
  rw [positionOf_eq, linearIndex_div_channels w row col hch, linearIndex_mod_channels w row col hch, hdiv, hmod]

theorem linearIndex_positionOf (w k : Nat) :
    linearIndex w (positionOf w k).1 (positionOf w k).2.1 (positionOf w k).2.2 = k := by
  simp only [positionOf_eq, linearIndex, Config.channels, Nat.div_add_mod']

/-- A grid of `h` rows ends with the last index of row `h - 1`, so the row alone bounds the index. -/
theorem positionOf_row_lt_iff {w : Nat} (hw : 0 < w) (h k : Nat) : (positionOf w k).1 < h ↔ k < h * w * 3 := by
  rw [positionOf_eq, Nat.div_lt_iff_lt_mul hw, Nat.div_lt_iff_lt_mul (by decide)]

theorem positionOf_col_lt {w : Nat} (hw : 0 < w) (k : Nat) : (positionOf w k).2.1 < w := by
  rw [positionOf_eq]
  exact Nat.mod_lt _ hw

theorem positionOf_channel_lt (w k : Nat) : (positionOf w k).2.2 < 3 := by
  rw [positionOf_eq]
  exact Nat.mod_lt _ (by decide)

/-- Settles O21: the two formulas of R62 are inverse to each other, and the row bounds the index on both sides. -/
theorem cellPositions : Obligations.CellPositions := by
  refine fun h w hw => ⟨fun row col ch hrow hcol hch => ?toPosition, fun k hk => ?toIndex⟩
  case toPosition =>
    have hpos : positionOf w (linearIndex w row col ch) = (row, col, ch) := positionOf_linearIndex hcol hch
    have hlt : (positionOf w (linearIndex w row col ch)).1 < h := by rwa [hpos]
    exact ⟨(positionOf_row_lt_iff hw h _).mp hlt, hpos⟩
  case toIndex =>
    exact ⟨linearIndex_positionOf w k, (positionOf_row_lt_iff hw h k).mpr hk, positionOf_col_lt hw k,
      positionOf_channel_lt w k⟩

end Sys2Proof.Machine

/-! R90, R91, R101: which values the host can write to `CMD` select a command, and what a write of any value does. -/

namespace Sys2Proof.Machine

/-- R90: `OPC` is bits [3:0]. -/
theorem opcOf_toNat (c : BitVec 8) : (opcOf c).toNat = c.toNat % 16 := by
  simp [opcOf]

/-- R90: `RSV` is bits [7:4]. -/
theorem rsvOf_toNat (c : BitVec 8) : (rsvOf c).toNat = c.toNat / 16 := by
  simp only [rsvOf, BitVec.extractLsb'_toNat, Nat.shiftRight_eq_div_pow]
  omega

theorem rsvOf_eq_zero_iff (c : BitVec 8) : rsvOf c = 0#4 ↔ c.toNat / 16 = 0 := by
  rw [← rsvOf_toNat]
  exact BitVec.toNat_inj.symm

theorem decodeOpc_of_unassigned {opc : BitVec 4} (h : opc.toNat = 0 ∨ 7 ≤ opc.toNat) : decodeOpc opc = none := by
  unfold decodeOpc
  split
  case h_7 => rfl
  all_goals omega

theorem decodeOpc_of_assigned {opc : BitVec 4} (h : 1 ≤ opc.toNat) (h' : opc.toNat ≤ 6) :
    ∃ i, decodeOpc opc = some i ∧ isCommand i = true := by
  unfold decodeOpc
  interval_cases opc.toNat <;> exact ⟨_, rfl, rfl⟩

theorem decode_cmd_of_reserved {c : BitVec 8} (h : c.toNat / 16 ≠ 0) :
    decode (.cmd c) = .error (.reservedBits (rsvOf c)) :=
  if_pos (mt (rsvOf_eq_zero_iff c).mp h)

theorem decode_cmd_of_rsv_zero {c : BitVec 8} (h : c.toNat / 16 = 0) :
    decode (.cmd c) = (decodeOpc (opcOf c)).elim (.error (.unassignedOpc (opcOf c))) .ok := by
  rw [decode, decodeCommand, if_neg (not_not.mpr ((rsvOf_eq_zero_iff c).mpr h))]
  cases decodeOpc (opcOf c) <;> rfl

/-- R101: `RSV` is looked at first, then `OPC`. -/
theorem decode_cmd_of_unassigned {c : BitVec 8} (h : c.toNat / 16 ≠ 0 ∨ c.toNat % 16 = 0 ∨ 7 ≤ c.toNat % 16) :
    ∃ e, decode (.cmd c) = .error e := by
  by_cases hrsv : c.toNat / 16 = 0
  · have hopc := h.resolve_left (not_not.mpr hrsv)
    rw [← opcOf_toNat] at hopc
    rw [decode_cmd_of_rsv_zero hrsv, decodeOpc_of_unassigned hopc]
    exact ⟨_, rfl⟩
  · exact ⟨_, decode_cmd_of_reserved hrsv⟩

theorem decode_cmd_of_assigned {c : BitVec 8} (hrsv : c.toNat / 16 = 0) (h : 1 ≤ c.toNat % 16) (h' : c.toNat % 16 ≤ 6) :
    ∃ i, isCommand i = true ∧ decode (.cmd c) = .ok i := by
  rw [← opcOf_toNat] at h h'
  obtain ⟨i, hdec, hi⟩ := decodeOpc_of_assigned h h'
  refine ⟨i, hi, ?_⟩
  rw [decode_cmd_of_rsv_zero hrsv, hdec]
  rfl

theorem writeCommand_of_ok {c : BitVec 8} {i : Instr} (h : decode (.cmd c) = .ok i) (s : State) :
    writeCommand c s = exec i s := by
  rw [writeCommand, h]

theorem writeCommand_of_error {c : BitVec 8} {e : DecodeRefusal} (h : decode (.cmd c) = .error e) (s : State) :
    writeCommand c s = illegalCommand c s := by
  rw [writeCommand, h]

/-- R27, then R242 with `IllegalCommand`. -/
theorem illegalCommand_of_not_busy (c : BitVec 8) {s : State} (h : s.run ≠ .busy) :
    illegalCommand c s = .next ((s.started c 0#4).failed .illegalCommand) := if_neg h

/-- R265: while `BUSY` a host write changes nothing. -/
theorem hostWrite_of_busy {n : Nat} (hn : n ≤ 14) (v : Nat) {s : State} (h : s.run = .busy) : hostWrite n v s = .next s := by
  rw [hostWrite, if_neg (Nat.not_lt.mpr hn), if_pos h]

theorem hostWrite_cmd_of_not_busy (v : Nat) {s : State} (h : s.run ≠ .busy) :
    hostWrite 0 v s = writeCommand (BitVec.ofNat 8 v) s := by
  rw [hostWrite, if_neg (by decide), if_neg h, if_pos rfl]

/-- The six commands share one meaning, R200's issue, and differ in the word kept and the first phase. -/
theorem exec_command_eq_issueCommand {i : Instr} (h : isCommand i = true) :
    ∃ c first, ∀ s, exec i s = issueCommand c first s := by
  cases i with
  | encode | decode | capacity | xorapply | lowones | highmask => exact ⟨_, _, fun _ => rfl⟩
  | idle | eCheck | ePro | eLen | ePay | dPro | dLen | dPay | xRun | qRun => cases h

theorem issueCommand_of_busy (c : BitVec 8) (first : BitVec 4) {s : State} (h : s.run = .busy) :
    issueCommand c first s = .next s := if_pos h

theorem exec_command_of_busy {i : Instr} (hi : isCommand i = true) {s : State} (h : s.run = .busy) :
    exec i s = .next s := by
  obtain ⟨c, first, hexec⟩ := exec_command_eq_issueCommand hi
  rw [hexec, issueCommand_of_busy c first h]

/-- A host write of a value that selects a command is that command, while `BUSY` too: both are then ignored. -/
theorem hostWrite_cmd_of_ok {v : Nat} {i : Instr} (hi : isCommand i = true) (hdec : decode (.cmd (BitVec.ofNat 8 v)) = .ok i)
    (s : State) : hostWrite 0 v s = exec i s := by
  by_cases h : s.run = .busy
  · rw [hostWrite_of_busy (by decide) v h, exec_command_of_busy hi h]
  · rw [hostWrite_cmd_of_not_busy v h, writeCommand_of_ok hdec]

/-- Settles O3: the decoder splits the written values as R101 does, and the host port runs what it answers. -/
theorem unassignedCommandFails : Obligations.UnassignedCommandFails := by
  refine fun v => ⟨fun h => ?unassigned, fun hrsv h h' => ?assigned⟩
  case unassigned =>
    obtain ⟨e, he⟩ := decode_cmd_of_unassigned h
    refine ⟨fun i hi => ?_, fun s hs => ⟨(s.started (BitVec.ofNat 8 v) 0#4).failed .illegalCommand, ?_, rfl⟩⟩
    · rw [he] at hi
      cases hi
    · rw [hostWrite_cmd_of_not_busy v hs, writeCommand_of_error he, illegalCommand_of_not_busy _ hs]
  case assigned =>
    obtain ⟨i, hi, hdec⟩ := decode_cmd_of_assigned hrsv h h'
    exact ⟨i, hi, hdec, hostWrite_cmd_of_ok hi hdec⟩

end Sys2Proof.Machine

/-! R93: the words of `STATUS` and `FAULT` as numbers, and the bit of `KEY_CTL`. -/

namespace Sys2Proof.Machine

/-- A word of two fields is the sum of the upper one, moved up, and the lower one. -/
theorem append_toNat {n m : Nat} (x : BitVec n) (y : BitVec m) : (x ++ y).toNat = x.toNat * 2 ^ m + y.toNat := by
  rw [BitVec.toNat_append, ← Nat.shiftLeft_add_eq_or_of_lt y.isLt, Nat.shiftLeft_eq]

theorem statusWord_toNat (r : RunState) (p : BitVec 4) : (statusWord r p).toNat = p.toNat * 2 ^ 2 + r.code.toNat := by
  calc (statusWord r p).toNat = (0#26 ++ p).toNat * 2 ^ 2 + r.code.toNat := append_toNat _ _
    _ = p.toNat * 2 ^ 2 + r.code.toNat := by rw [append_toNat, BitVec.toNat_zero, Nat.zero_mul, Nat.zero_add]

theorem faultWord_toNat (f : Option Failure) : (faultWord f).toNat = (faultCode f).toNat := by
  calc (faultWord f).toNat = (0#28).toNat * 2 ^ 4 + (faultCode f).toNat := append_toNat _ _
    _ = (faultCode f).toNat := by rw [BitVec.toNat_zero, Nat.zero_mul, Nat.zero_add]

/-- R22: the codes of `STATUS.STATE`. -/
theorem runState_code_toNat :
    ∀ p ∈ [(RunState.idle, 0), (RunState.busy, 1), (RunState.done, 2), (RunState.fault, 3)], p.1.code.toNat = p.2 := by
  decide

/-- R231: the codes of the failure kinds, and 0 for no failure. -/
theorem faultCode_toNat :
    ∀ p ∈ [(none, 0), (some Failure.invalidImage, 1), (some .corruptHeader, 2), (some .invalidBitWidth, 3),
      (some .missingKey, 4), (some .invalidKey, 5), (some .payloadTooLarge, 6), (some .cursorExhausted, 7),
      (some .maskRange, 8), (some .illegalCommand, 9)], (faultCode p.1).toNat = p.2 := by
  decide

theorem registerValue_status (s : State) :
    ∃ x, registerValue 1 s = some x ∧ x.toNat = s.phase.toNat * 2 ^ 2 + s.run.code.toNat :=
  ⟨_, rfl, by rw [BitVec.toNat_setWidth_of_le (by decide), statusWord_toNat]⟩

theorem registerValue_fault (s : State) : ∃ x, registerValue 2 s = some x ∧ x.toNat = (faultCode s.fault).toNat :=
  ⟨_, rfl, by rw [BitVec.toNat_setWidth_of_le (by decide), faultWord_toNat]⟩

theorem keyPresent_iff (s : State) : s.keyPresent = true ↔ s.keyCtl.toNat = 1 := by
  rw [State.keyPresent, beq_iff_eq]
  exact BitVec.toNat_inj.symm

/-- Settles O9: the two words are the sums of their fields, and the fields hold the codes of R22 and R231. -/
theorem statusRegisterLayout : Obligations.StatusRegisterLayout := by
  refine fun s => ⟨?status, ?fault, keyPresent_iff s⟩
  case status =>
    obtain ⟨x, hread, hx⟩ := registerValue_status s
    have hphase := s.phase.isLt
    have hcode := s.run.code.isLt
    refine ⟨x, hread, by omega, by omega, fun p hp hrun => ?_⟩
    have hp := runState_code_toNat p hp
    rw [← hrun] at hp
    omega
  case fault =>
    obtain ⟨x, hread, hx⟩ := registerValue_fault s
    refine ⟨x, hread, fun p hp hfault => ?_⟩
    rw [hx, hfault, faultCode_toNat p hp]

end Sys2Proof.Machine

/-! R121: the high mask as the complement of the low one, and both bit by bit. -/

namespace Sys2Proof.Machine

/-- R120: the set bits of the low mask are those below `n`. -/
theorem lowOnes_getLsbD (n : Fin 9) (j : Nat) : (lowOnes n).getLsbD j = decide (j < n.val) := by
  rw [← BitVec.testBit_toNat, lowOnes_toNat, Nat.testBit_two_pow_sub_one]

/-- R121: within the 8 bits the high mask is the complement of the low one. -/
theorem highMask_eq_not_lowOnes (n : Fin 9) : highMask n = ~~~lowOnes n := by
  have hfull : lowOnes 8 = BitVec.allOnes 8 := rfl
  rw [highMask, hfull, BitVec.allOnes_xor]

theorem highMask_toNat (n : Fin 9) : (highMask n).toNat = 256 - 2 ^ n.val := by
  have hpos := Nat.two_pow_pos n.val
  rw [highMask_eq_not_lowOnes, BitVec.toNat_not, lowOnes_toNat]
  omega

/-- R121: the set bits of the high mask are `n` and above. -/
theorem highMask_getLsbD (n : Fin 9) {j : Nat} (hj : j < 8) : (highMask n).getLsbD j = decide (n.val ≤ j) := by
  rw [highMask_eq_not_lowOnes, BitVec.getLsbD_not, lowOnes_getLsbD, decide_eq_true hj, Bool.true_and, ← decide_not]
  exact decide_eq_decide.2 Nat.not_lt

/-- Settles O14: the high mask is the complement of the low one, so the two are disjoint and cover the byte. -/
theorem maskValues : Obligations.MaskValues := by
  refine fun n => ⟨lowOnes_toNat n, highMask_toNat n, rfl, fun j => highMask_getLsbD n j.isLt, ?disjoint, ?cover⟩
  case disjoint => rw [highMask_eq_not_lowOnes, BitVec.and_not_self]; rfl
  case cover => rw [highMask_eq_not_lowOnes, BitVec.or_not_self]; rfl

end Sys2Proof.Machine

/-! R132: the two answers of `Next()`. -/

namespace Sys2Proof.Machine

/-- Settles O22: below `N` the moved `CUR` is at most `N`, which fits its width, so it is exactly `CUR + 1`. -/
theorem nextYieldsOrExhausts : Obligations.NextYieldsOrExhausts := by
  refine fun s => ⟨fun hlt => ?yields, fun hge => ?exhausts⟩
  case yields =>
    have hcur : (BitVec.ofNat 34 (s.cur.toNat + 1)).toNat = s.cur.toNat + 1 := cursor_toNat s hlt
    exact ⟨_, next_of_lt s hlt, rfl, hcur⟩
  case exhausts => exact next_of_ge s hge

end Sys2Proof.Machine

/-! R150, R152: `Available` as a floor, and the room a payload within it leaves. -/

namespace Sys2Proof.Machine

/-- R150: the divisor is positive, so the floor division is the Euclidean one. -/
theorem available_add_five (N bw : Nat) : available N bw + 5 = ((N : Int) - 6) * bw / 8 := by
  rw [available, Int.fdiv_eq_ediv_of_nonneg _ (by decide)]
  simp only [Config.prologueCells, Config.lengthBytes, Nat.cast_ofNat]
  omega

theorem available_le (N bw : Nat) : 8 * (available N bw + 5) ≤ ((N : Int) - 6) * bw := by
  rw [available_add_five]
  exact Int.mul_ediv_self_le (by decide)

theorem lt_available (N bw : Nat) : ((N : Int) - 6) * bw < 8 * (available N bw + 5) + 8 := by
  rw [available_add_five]
  exact Int.lt_mul_ediv_self_add (by decide)

/-- Settles O17: `Available + 5` is a Euclidean quotient by 8, which lies within 8 of what is divided. -/
theorem availableIsFloor : Obligations.AvailableIsFloor :=
  fun N bw _ _ => ⟨available_le N bw, lt_available N bw⟩

/-- R13: rounding up adds less than one divisor. -/
theorem ceilDiv_mul_lt (a : Nat) {b : Nat} (hb : 0 < b) : ceilDiv a b * b < a + b := by
  have hle : ceilDiv a b * b ≤ a + b - 1 := Nat.div_mul_le_self _ _
  omega

/-- R152: `Available` leaves 40 bits for the 32 of the length field, and the other 8 cover what rounding up both counts of
cells can add. -/
theorem room_of_le_available {N size bw : Nat} (hbw : 1 ≤ bw) (hbw' : bw ≤ 8) (hsize : (size : Int) ≤ available N bw) :
    6 + lengthChunks bw + payloadChunks size bw ≤ N := by
  have hlen : lengthChunks bw * bw < 32 + bw := ceilDiv_mul_lt _ hbw
  have hpay : payloadChunks size bw * bw < 8 * size + bw := ceilDiv_mul_lt _ hbw
  have hbits := available_le N bw
  have hlt : ((lengthChunks bw + payloadChunks size bw : Nat) : Int) * bw < ((N : Int) - 6 + 1) * bw := by
    rw [add_mul, one_mul, ← Nat.cast_mul, add_mul]
    omega
  have := lt_of_mul_lt_mul_right hlt (Int.natCast_nonneg bw)
  omega

end Sys2Proof.Machine

/-! R200, R203, R204: how an `ENCODE` runs, from its start to the end of its last phase. -/

namespace Sys2Proof.Machine

/-- R200 for a command that is accepted. -/
theorem runCommand_of_next {i : Instr} {s t : State} (h : exec i s = .next t) :
    runCommand i s = runPhases maxPhases t := by
  rw [runCommand, h]

/-- While `BUSY` the sequencer runs the instruction at `STATUS.PHASE` and goes on from the state it leaves. -/
theorem runPhases_of_busy {s t : State} {i : Instr} (hrun : s.run = .busy) (hdec : decode (.phase s.phase) = .ok i)
    (hexec : exec i s = .next t) (fuel : Nat) : runPhases (fuel + 1) s = runPhases fuel t := by
  rw [runPhases, if_pos hrun, runPhase, hdec]
  simp only [hexec]

theorem runPhases_of_not_busy {s : State} (hrun : s.run ≠ .busy) (fuel : Nat) : runPhases fuel s = .next s := by
  cases fuel with
  | zero => rfl
  | succ fuel => exact if_neg hrun

theorem exec_encode_of_not_busy {s : State} (h : s.run ≠ .busy) : exec .encode s = .next (s.started 0x01#8 Phase.eCheck) :=
  if_neg h

/-- `s` as `E.CHECK` leaves it when its checks pass (R204). -/
def State.checked (s : State) : State :=
  { s with bw := s.bwIn, len := s.payLen, keyok := s.keyPresent, phase := Phase.ePro }

/-- R204 once the width is legal and no present key is empty: the size decides. -/
theorem exec_eCheck_of_legal {s : State} (hbw : 1 ≤ s.bwIn.toNat) (hbw' : s.bwIn.toNat ≤ 7)
    (hkey : s.keyPresent = true → s.keyFilled = true) :
    exec .eCheck s =
      if (s.payLen.toNat : Int) > available s.gridSize s.bwIn.toNat then .next (failEntry .payloadTooLarge s)
      else .next s.checked := by
  have hpass : ¬(s.keyPresent && !s.keyFilled) = true := by simpa using hkey
  rw [exec, execECheck, legalWidth_eq_some _ hbw hbw']
  exact if_neg hpass

/-- What `E.CHECK` establishes, as propositions. -/
theorem encodeReady_iff (s : State) :
    s.encodeReady = true ↔
      (1 ≤ s.bw.toNat ∧ s.bw.toNat ≤ 7) ∧ s.bw = s.bwIn ∧ s.len = s.payLen ∧ s.keyok = s.keyPresent ∧
        (s.keyok = true → s.keyFilled = true) ∧ (s.payLen.toNat : Int) ≤ available s.gridSize s.bw.toNat := by
  by_cases hbw : 1 ≤ s.bw.toNat ∧ s.bw.toNat ≤ 7
  · rw [State.encodeReady, legalWidth_eq_some _ hbw.1 hbw.2]
    simp only [Bool.and_eq_true, beq_iff_eq, decide_eq_true_eq, Bool.or_eq_true, Bool.not_eq_true', imp_iff_not_or,
      Bool.not_eq_true, and_assoc, hbw, true_and]
  · rw [State.encodeReady, legalWidth_eq_none _ hbw]
    simp [hbw]

/-- R152: after `E.CHECK` the grid has room for the whole payload behind the header. -/
theorem room_of_encodeReady {s : State} (h : s.encodeReady = true) :
    s.headerEnd + payloadChunks s.len.toNat s.bw.toNat ≤ s.gridSize := by
  obtain ⟨⟨hbw, hbw'⟩, -, hlen, -, -, hsize⟩ := (encodeReady_iff s).mp h
  rw [← hlen] at hsize
  exact room_of_le_available hbw (by omega) hsize

/-- `s` with `n` chunks of `val` packed at `CUR` (R162). -/
def State.packed (s : State) (val n : Nat) (bw : Fin 9) : State :=
  { s with
    v := val >>> (n * bw.val), nc := BitVec.ofNat 36 n, ci := BitVec.ofNat 36 n,
    cur := BitVec.ofNat 34 (s.cur.toNat + n), grid := packGrid bw n s.cur.toNat val s.grid }

theorem pack_eq_packed (val n : Nat) (bw : Fin 9) (s : State) (h : s.cur.toNat + n ≤ s.gridSize) :
    pack val n bw s = .ok () (s.packed val n bw) := pack_of_room val n bw s h

/-- `s` with the prologue of R172 composed in `OBF` and `PRO`. -/
def State.withPrologue (s : State) : State :=
  { s with obf := flagOf s.keyok, pro := prologueOf (flagOf s.keyok) s.bw }

/-- R172 where the six cells are there. -/
theorem exec_ePro_of_room {s : State} (h : s.cur.toNat + Config.prologueCells ≤ s.gridSize) :
    exec .ePro s =
      .next { s.withPrologue.packed s.withPrologue.pro.toNat Config.prologueCells 1 with phase := Phase.eLen } := by
  show ((pack _ Config.prologueCells 1 s.withPrologue).bind _).outcome = _
  rw [pack_eq_packed _ _ _ _ (by exact h)]
  rfl

/-- R176 where the cells of the length field are there. -/
theorem exec_eLen_of_room {s : State} {bw : Fin 9} (hbw : legalWidth s.bw = some bw)
    (h : s.cur.toNat + lengthChunks bw.val ≤ s.gridSize) :
    exec .eLen s = .next { s.packed s.len.toNat (lengthChunks bw.val) bw with phase := Phase.ePay } := by
  rw [exec, execELen, hbw]
  simp only [pack_eq_packed _ _ _ _ h]
  rfl

/-- R187 where the cells of the payload are there and no key in use is empty. -/
theorem exec_ePay_of_room {s : State} {bw : Fin 9} (hbw : legalWidth s.bw = some bw)
    (hkey : s.keyok = true → s.keyFilled = true) (h : s.cur.toNat + payloadChunks s.len.toNat bw.val ≤ s.gridSize) :
    exec .ePay s = .next (finishCommand
      { s.packed (toInt (s.payloadBytes s.len.toNat)) (payloadChunks s.len.toNat bw.val) bw with
        bwOut := s.bw, obfOut := s.obf }) := by
  have hdef : (s.keyok && s.streamUndefined s.len.toNat) = false := by
    cases hk : s.keyok with
    | false => rfl
    | true => rw [State.streamUndefined, hkey hk]; rfl
  rw [exec, execEPay, hbw]
  simp only [hdef, pack_eq_packed _ _ _ _ h]
  rfl

/-- `ENCODE` runs, its checks have passed, and it is about to run phase `p` at cell `k`. -/
structure State.EncodesFrom (s : State) (p : BitVec 4) (k : Nat) : Prop where
  run : s.run = .busy
  phase : s.phase = p
  ready : s.encodeReady = true
  cur : s.cur.toNat = k

/-- R187, R203: the last phase of `ENCODE` ends the command. -/
theorem runPhases_done_from_ePay {s : State} {fuel : Nat} (h : s.EncodesFrom Phase.ePay s.headerEnd) :
    ∃ t, runPhases (fuel + 1) s = .next t ∧ t.run = .done ∧ t.fault = s.fault := by
  obtain ⟨hrun, hphase, hready, hcur⟩ := h
  obtain ⟨⟨hbw, hbw'⟩, -, -, -, hkey, -⟩ := (encodeReady_iff s).mp hready
  have hroom := room_of_encodeReady hready
  rw [← hcur] at hroom
  have hexec := exec_ePay_of_room (legalWidth_eq_some _ hbw hbw') hkey hroom
  rw [runPhases_of_busy hrun (by rw [hphase]; rfl) hexec, runPhases_of_not_busy (by simp)]
  exact ⟨_, rfl, rfl, rfl⟩

theorem runPhases_done_from_eLen {s : State} {fuel : Nat} (h : s.EncodesFrom Phase.eLen Config.prologueCells) :
    ∃ t, runPhases (fuel + 2) s = .next t ∧ t.run = .done ∧ t.fault = s.fault := by
  obtain ⟨hrun, hphase, hready, hcur⟩ := h
  obtain ⟨⟨hbw, hbw'⟩, -⟩ := (encodeReady_iff s).mp hready
  have hend : s.cur.toNat + lengthChunks s.bw.toNat = s.headerEnd := by rw [hcur, State.headerEnd]
  have hroom : s.cur.toNat + lengthChunks s.bw.toNat ≤ s.gridSize := by
    rw [hend]
    exact Nat.le_of_add_right_le (room_of_encodeReady hready)
  rw [runPhases_of_busy hrun (by rw [hphase]; rfl) (exec_eLen_of_room (legalWidth_eq_some _ hbw hbw') hroom)]
  exact runPhases_done_from_ePay ⟨hrun, rfl, hready, (cursor_toNat s hroom).trans hend⟩

theorem runPhases_done_from_ePro {s : State} {fuel : Nat} (h : s.EncodesFrom Phase.ePro 0) :
    ∃ t, runPhases (fuel + 3) s = .next t ∧ t.run = .done ∧ t.fault = s.fault := by
  obtain ⟨hrun, hphase, hready, hcur⟩ := h
  have hend : s.cur.toNat + Config.prologueCells = Config.prologueCells := by rw [hcur, Nat.zero_add]
  have hroom : s.cur.toNat + Config.prologueCells ≤ s.gridSize := by
    rw [hend]
    exact Nat.le_of_add_right_le (Nat.le_of_add_right_le (room_of_encodeReady hready))
  rw [runPhases_of_busy hrun (by rw [hphase]; rfl) (exec_ePro_of_room hroom)]
  exact runPhases_done_from_eLen ⟨hrun, rfl, hready, (cursor_toNat s hroom).trans hend⟩

/-- Settles O20: `E.CHECK` fails before any cell is written, or leaves the room that the three writing phases need. -/
theorem capacityBoundary : Obligations.CapacityBoundary := by
  intro s hrun hbw hbw' hkey
  have hfilled : s.keyPresent = true → s.keyFilled = true := fun hp => bne_iff_ne.mpr (hkey hp)
  have hcheck := exec_eCheck_of_legal (s := s.started 0x01#8 Phase.eCheck) hbw hbw' hfilled
  rw [runCommand_of_next (exec_encode_of_not_busy hrun), maxPhases]
  by_cases hsize : (s.payLen.toNat : Int) > available s.gridSize s.bwIn.toNat
  case pos =>
    rw [runPhases_of_busy rfl rfl (hcheck.trans (if_pos hsize)), runPhases_of_not_busy (by simp)]
    exact ⟨_, rfl, fun _ => ⟨rfl, rfl, rfl⟩, fun hle => absurd hsize (Int.not_lt.mpr hle)⟩
  case neg =>
    rw [runPhases_of_busy rfl rfl (hcheck.trans (if_neg hsize))]
    have hready : (s.started 0x01#8 Phase.eCheck).checked.encodeReady = true :=
      (encodeReady_iff _).mpr ⟨⟨hbw, hbw'⟩, rfl, rfl, rfl, hfilled, Int.not_lt.mp hsize⟩
    obtain ⟨t, ht, hdone, hfault⟩ := runPhases_done_from_ePro ⟨rfl, rfl, hready, rfl⟩
    exact ⟨t, ht, fun hgt => absurd hgt hsize, fun _ => ⟨hdone, hfault⟩⟩

end Sys2Proof.Machine

/-! R160: the cell that `PutChunk` writes, bit by bit. -/

namespace Sys2Proof.Machine

/-- R160: the masks split a byte at bit `bw`, the chunk below it and the old value above. -/
theorem mergeChunk_getLsbD (old : Byte) (c : Nat) (bw : Fin 9) {j : Nat} (hj : j < 8) :
    (mergeChunk old c bw).getLsbD j = if j < bw.val then c.testBit j else old.getLsbD j := by
  rw [mergeChunk, BitVec.getLsbD_or, BitVec.getLsbD_and, BitVec.getLsbD_and, highMask_getLsbD bw hj, lowOnes_getLsbD,
    BitVec.getLsbD_ofNat]
  by_cases hlow : j < bw.val
  · simp [hlow, hj]
  · simp [hlow, Nat.le_of_not_lt hlow]

/-- Settles O23: the cell at `CUR` is written with the merged byte, and a write reaches no other cell. -/
theorem putChunkKeepsHighBits : Obligations.PutChunkKeepsHighBits := by
  refine fun c bw s _ _ hwf => ⟨fun hlt => ?written, fun hge => putChunk_of_ge c bw s hge⟩
  case written =>
    refine ⟨_, putChunk_of_lt c bw s hlt, rfl, fun j hj => ?_, fun k hk => ?_⟩
    · rw [Memory.read_write hwf, if_pos rfl, mergeChunk_getLsbD _ c bw hj]
    · rw [Memory.read_write hwf, if_neg hk]

end Sys2Proof.Machine

/-! R162: `Pack` where the cells are there and where one is missing. -/

namespace Sys2Proof.Machine

/-- Settles O25: the packer's loop leaves `packGrid`, whose cells are known one by one. -/
theorem packLaysOutChunks : Obligations.PackLaysOutChunks := by
  refine fun val n bw s _ _ hwf => ⟨fun hroom => ?packed, fun hshort hn => pack_of_short val n bw s hshort hn⟩
  case packed =>
    have hv : val >>> (n * bw.val) = val / 2 ^ (n * bw.val) := Nat.shiftRight_eq_div_pow _ _
    refine ⟨_, pack_eq_packed val n bw s hroom, ?_, packGrid_wf bw n _ val hwf, cursor_toNat s hroom,
      packGrid_read bw n _ val hwf⟩
    rw [State.packed, hv]

end Sys2Proof.Machine

/-! R164: the number that `Unpack` answers, bit by bit. -/

namespace Sys2Proof.Machine

/-- R164: the cells' low bits stand one after the other, `bw` of each. -/
theorem gridValue_testBit (g : Memory) (base n : Nat) {bw i j : Nat} (hi : i < n) (hj : j < bw) :
    (gridValue g base n bw).testBit (i * bw + j) = (g.read (base + i)).getLsbD j := by
  induction n with
  | zero => omega
  | succ n ih =>
    rw [gridValue_succ, Nat.add_comm, Nat.mul_comm _ (2 ^ _), Nat.testBit_two_pow_mul_add _ (gridValue_lt g base n bw)]
    obtain hlt | rfl := Nat.lt_succ_iff_lt_or_eq.mp hi
    · -- an earlier cell, whose bits end where the new ones begin
      have hle : (i + 1) * bw ≤ n * bw := Nat.mul_le_mul_right bw hlt
      rw [Nat.add_one_mul] at hle
      rw [if_pos (by omega), ih hlt]
    · rw [if_neg (by omega), Nat.add_sub_cancel_left, Nat.testBit_mod_two_pow, decide_eq_true hj, Bool.true_and,
        BitVec.testBit_toNat]

/-- Settles O26: `Unpack` answers the value of the `n` cells at `CUR`, which is bounded and known bit by bit. -/
theorem unpackAccumulatesChunks : Obligations.UnpackAccumulatesChunks := by
  refine fun n bw s _ _ => ⟨fun hroom => ?answered, fun hshort hn => unpack_of_short n bw s hshort hn⟩
  case answered =>
    exact ⟨_, unpack_of_room n bw s hroom, gridValue_lt _ _ _ _, fun _ _ hi hj => gridValue_testBit _ _ n hi hj⟩

end Sys2Proof.Machine

/-! R165: what `Pack` lays out, `Unpack` reads back. -/

namespace Sys2Proof.Machine

theorem chunk_lt (val bw i : Nat) : chunk val bw i < 2 ^ bw := Nat.mod_lt _ (Nat.two_pow_pos bw)

theorem replaceLow_mod (old : Byte) {bw c : Nat} (hc : c < 2 ^ bw) : replaceLow old bw c % 2 ^ bw = c := by
  rw [replaceLow, Nat.mul_add_mod_of_lt hc]

/-- `n` cells that hold the chunks of `val` stand for its low `n * bw` bits. -/
theorem gridValue_of_chunks {g : Memory} {base n bw val : Nat}
    (h : ∀ i < n, (g.read (base + i)).toNat % 2 ^ bw = chunk val bw i) :
    gridValue g base n bw = val % 2 ^ (n * bw) := by
  induction n with
  | zero => rw [gridValue_zero, Nat.zero_mul, Nat.pow_zero, Nat.mod_one]
  | succ n ih =>
    rw [gridValue_succ, ih fun i hi => h i (by omega), h n (by omega), chunk, Nat.mul_comm (_ % _), Nat.add_one_mul,
      Nat.pow_add, Nat.mod_mul]

theorem gridValue_packGrid (bw : Fin 9) (n k val : Nat) {g : Memory} (hg : g.wf = true) :
    gridValue (packGrid bw n k val g) k n bw.val = val % 2 ^ (n * bw.val) := by
  refine gridValue_of_chunks fun i hi => ?_
  rw [packGrid_read bw n k val hg, if_pos (by omega), Nat.add_sub_cancel_left, replaceLow_mod _ (chunk_lt _ _ _)]

/-- Settles O27: the cells packed stand for `val` modulo `2^(n * bw)`, which is `val`. -/
theorem unpackInvertsPack : Obligations.UnpackInvertsPack := by
  intro val n bw s _ _ hwf hval hroom
  have hunpack := unpack_of_room n bw { s.packed val n bw with cur := s.cur } hroom
  have hvalue : gridValue (s.packed val n bw).grid s.cur.toNat n bw.val = val :=
    (gridValue_packGrid bw n _ val hwf).trans (Nat.mod_eq_of_lt hval)
  simp only [hvalue] at hunpack
  exact ⟨_, _, pack_eq_packed val n bw s hroom, hunpack, rfl⟩

end Sys2Proof.Machine

/-! R167: `NeedRoom` and the calls of `Next()` it stands for. -/

namespace Sys2Proof.Machine

/-- Settles O28: both `NeedRoom` and `Unpack` look at whether `n` cells are left from `CUR`. -/
theorem needRoomForesees : Obligations.NeedRoomForesees := by
  intro n bw s hcur
  by_cases hroom : s.cur.toNat + n ≤ s.gridSize
  case pos =>
    rw [needRoom_of_room n s hroom, if_neg (by omega), unpack_of_room n bw s hroom]
    exact ⟨rfl, nofun, nofun⟩
  case neg =>
    have hshort : s.gridSize < s.cur.toNat + n := Nat.lt_of_not_le hroom
    rw [needRoom_of_short n s hshort, if_pos (by omega)]
    exact ⟨rfl, fun _ => unpack_of_short n bw s hshort (by omega), fun _ => rfl⟩

end Sys2Proof.Machine

/-! R99: the prologue as the sum of its two fields. -/

namespace Sys2Proof.Machine

/-- The mask of R99's two fields keeps a value modulo 8. -/
theorem and_lowOnes_three_toNat (x : BitVec 6) : (x &&& (lowOnes 3).setWidth 6).toNat = x.toNat % 8 := by
  have hmask : ((lowOnes 3).setWidth 6).toNat = 2 ^ 3 - 1 := rfl
  rw [BitVec.toNat_and, hmask, Nat.and_two_pow_sub_one_eq_mod]

theorem prologueOf_toNat (obf : BitVec 3) (bw : BitVec 4) : (prologueOf obf bw).toNat = obf.toNat * 8 + bw.toNat % 8 := by
  have hshift : (obf.setWidth 6 <<< 3).toNat = 2 ^ 3 * obf.toNat := by
    rw [BitVec.toNat_shiftLeft, BitVec.toNat_setWidth, Nat.shiftLeft_eq]
    omega
  have hlow : bw.toNat % 8 < 2 ^ 3 := Nat.mod_lt _ (by decide)
  rw [prologueOf, BitVec.toNat_or, hshift, and_lowOnes_three_toNat, BitVec.toNat_setWidth_of_le (by decide),
    ← Nat.two_pow_add_eq_or_of_lt hlow, Nat.mul_comm]

theorem widthField_toNat (pro : BitVec 6) : (widthField pro).toNat = pro.toNat % 8 := by
  rw [widthField, BitVec.toNat_setWidth, and_lowOnes_three_toNat]
  omega

theorem obfField_toNat (pro : BitVec 6) : (obfField pro).toNat = pro.toNat / 8 := by
  rw [obfField, BitVec.toNat_setWidth, and_lowOnes_three_toNat, BitVec.toNat_ushiftRight, Nat.shiftRight_eq_div_pow]
  omega

theorem flagOf_toNat (keyok : Bool) : (flagOf keyok).toNat = if keyok then 7 else 0 := by
  cases keyok <;> rfl

/-- R172's corner case: the mask keeps every legal width. -/
theorem prologueOf_flagOf (keyok : Bool) {bw : BitVec 4} (h : bw.toNat ≤ 7) :
    prologueOf (flagOf keyok) bw = BitVec.ofNat 6 ((if keyok then 7 else 0) * 8 + bw.toNat) := by
  refine BitVec.eq_of_toNat_eq ?_
  have hflag := flagOf_toNat keyok
  have hlt := (flagOf keyok).isLt
  rw [prologueOf_toNat, BitVec.toNat_ofNat, ← hflag]
  omega

end Sys2Proof.Machine

/-! R172, R176: the two header phases of `ENCODE`. -/

namespace Sys2Proof.Machine

/-- R13: rounding up reaches what is divided. -/
theorem le_ceilDiv_mul (a : Nat) {b : Nat} (hb : 0 < b) : a ≤ ceilDiv a b * b := by
  have hlt : a + b - 1 < ((a + b - 1) / b + 1) * b := Nat.lt_mul_of_div_lt (Nat.lt_succ_self _) hb
  rw [Nat.add_one_mul] at hlt
  rw [ceilDiv]
  omega

/-- R162: of a value that the packed cells can hold nothing is left in `V`. -/
theorem packed_of_lt {s : State} {val n : Nat} {bw : Fin 9} (h : val < 2 ^ (n * bw.val)) :
    s.packed val n bw = { s with
      v := 0, nc := BitVec.ofNat 36 n, ci := BitVec.ofNat 36 n, cur := BitVec.ofNat 34 (s.cur.toNat + n),
      grid := packGrid bw n s.cur.toNat val s.grid } := by
  rw [State.packed, Nat.shiftRight_eq_div_pow, Nat.div_eq_of_lt h]

/-- R176: the cells of the length field hold every length. -/
theorem len_lt_lengthChunks (len : BitVec 32) {bw : Nat} (hbw : 0 < bw) : len.toNat < 2 ^ (lengthChunks bw * bw) :=
  Nat.lt_of_lt_of_le len.isLt (Nat.pow_le_pow_right (by decide) (le_ceilDiv_mul Config.lengthBits hbw))

/-- Settles O30: `E.PRO` packs the six bits of `PRO` from cell 0, and the packer's cells are known one by one. -/
theorem prologueWritten : Obligations.PrologueWritten := by
  intro s hwf _ hbw hcur hroom
  have hbase : s.cur.toNat = 0 := by rw [hcur]; rfl
  have hexec := exec_ePro_of_room (s := s) (by rw [hbase]; exact hroom)
  rw [packed_of_lt (by exact s.withPrologue.pro.isLt)] at hexec
  refine ⟨_, hexec, ?state, packGrid_wf 1 _ _ _ hwf, fun k => ?cells⟩
  case state =>
    simp only [State.withPrologue, prologueOf_flagOf s.keyok hbw, hbase]
    rfl
  case cells =>
    refine (packGrid_read 1 _ _ _ hwf k).trans ?_
    simp only [State.withPrologue, hbase, Nat.zero_le, true_and, Nat.zero_add, Nat.sub_zero]
    rfl

/-- Settles O31: `E.LEN` packs `LEN`, which its cells can hold, from cell 6. -/
theorem lengthWritten : Obligations.LengthWritten := by
  intro s hwf hbw hbw' hcur hroom
  have hbase : s.cur.toNat = 6 := by rw [hcur]; rfl
  have hexec := exec_eLen_of_room (legalWidth_eq_some _ hbw hbw') (by rw [hbase]; exact hroom)
  rw [packed_of_lt (by exact len_lt_lengthChunks s.len hbw), hbase] at hexec
  exact ⟨_, hexec, rfl, packGrid_wf _ _ _ _ hwf, packGrid_read _ _ _ _ hwf⟩

end Sys2Proof.Machine

/-! R173, R174: the validation of a prologue. -/

namespace Sys2Proof.Machine

theorem obfField_eq_iff (pro : BitVec 6) (obf : BitVec 3) : obfField pro = obf ↔ pro.toNat / 8 = obf.toNat := by
  rw [← obfField_toNat]
  exact BitVec.toNat_inj.symm

theorem not_keyPresent_iff (s : State) : (!s.keyPresent) = true ↔ s.keyCtl = 0#1 := by
  rw [Bool.not_eq_true', ← Bool.not_eq_true, keyPresent_iff, ← BitVec.toNat_inj, BitVec.toNat_zero]
  have := s.keyCtl.isLt
  omega

theorem not_keyFilled_iff (s : State) : (!s.keyFilled) = true ↔ s.keyLen = 0#32 := by
  rw [Bool.not_eq_true', State.keyFilled, bne_eq_false_iff_eq]

/-- `s` with the two fields of `PRO` taken into `OBF` and `BW` (R99). -/
def State.withFields (s : State) : State := { s with obf := obfField s.pro, bw := widthField s.pro }

theorem withFields_eq (s : State) :
    s.withFields = { s with obf := BitVec.ofNat 3 (s.pro.toNat / 8), bw := BitVec.ofNat 4 (s.pro.toNat % 8) } := by
  rw [← obfField_toNat, ← widthField_toNat, BitVec.ofNat_toNat, BitVec.ofNat_toNat, BitVec.setWidth_eq, BitVec.setWidth_eq,
    State.withFields]

/-- R173 with the order of R174, by the two fields as numbers; a width field is never above 8. -/
theorem validatePrologue_eq (s : State) :
    validatePrologue s =
      if s.pro.toNat / 8 ≠ 7 ∧ s.pro.toNat / 8 ≠ 0 then .raise .corruptHeader s
      else if s.pro.toNat % 8 = 0 then .raise .invalidBitWidth s
      else if s.pro.toNat / 8 = 7 then
        if s.keyCtl = 0#1 then .raise .missingKey s.withFields
        else if s.keyLen = 0#32 then .raise .invalidKey s.withFields
        else .ok () { s.withFields with keyok := true, phase := Phase.dLen }
      else .ok () { s.withFields with keyok := false, phase := Phase.dLen } := by
  have hon : obfField s.pro = Config.obfOn ↔ s.pro.toNat / 8 = 7 := obfField_eq_iff _ _
  have hoff : obfField s.pro = Config.obfOff ↔ s.pro.toNat / 8 = 0 := obfField_eq_iff _ _
  have hwidth : (widthField s.pro).toNat < 1 ∨ (widthField s.pro).toNat > 8 ↔ s.pro.toNat % 8 = 0 := by
    rw [widthField_toNat]
    omega
  have hkey : (!s.withFields.keyPresent) = true ↔ s.keyCtl = 0#1 := not_keyPresent_iff s
  have hlen : (!s.withFields.keyFilled) = true ↔ s.keyLen = 0#32 := not_keyFilled_iff s
  simp only [← hon, ← hoff, ← hwidth, ← hkey, ← hlen, ne_eq]
  rfl

/-- `s` with the `n` cells at `CUR` read into `V` (R164). -/
def State.unpacked (s : State) (n : Nat) (bw : Fin 9) : State :=
  { s with
    v := gridValue s.grid s.cur.toNat n bw.val, nc := BitVec.ofNat 36 n, ci := BitVec.ofNat 36 n,
    cur := BitVec.ofNat 34 (s.cur.toNat + n) }

theorem unpack_eq_unpacked (n : Nat) (bw : Fin 9) (s : State) (h : s.cur.toNat + n ≤ s.gridSize) :
    unpack n bw s = .ok (s.unpacked n bw).v (s.unpacked n bw) := unpack_of_room n bw s h

/-- R173 where a cell of the prologue is missing. -/
theorem exec_dPro_of_short {s : State} (h : s.gridSize < s.cur.toNat + Config.prologueCells) :
    exec .dPro s = .next (s.failed .cursorExhausted) := by
  rw [exec, execDPro, needRoom_of_short _ _ h]
  rfl

/-- `s` with the prologue cells read into `PRO` (R173). -/
def State.prologueRead (s : State) : State :=
  { s.unpacked Config.prologueCells 1 with pro := BitVec.ofNat 6 (s.unpacked Config.prologueCells 1).v }

/-- R173 where the six cells are there. -/
theorem exec_dPro_of_room {s : State} (h : s.cur.toNat + Config.prologueCells ≤ s.gridSize) :
    exec .dPro s = (validatePrologue s.prologueRead).outcome := by
  rw [exec, execDPro, needRoom_of_room _ _ h]
  simp only [Eff.bind, unpack_eq_unpacked _ _ _ h]
  rfl

/-- Settles O33: `PRO` is the six bits' value, and the validation's chain of checks is that of the rules. -/
theorem prologueValidated : Obligations.PrologueValidated := by
  intro s hcur
  have hbase : s.cur.toNat = 0 := by rw [hcur]; rfl
  refine ⟨fun hshort => ?short, fun hroom => ?room⟩
  case short => exact exec_dPro_of_short (by rw [hbase]; exact hshort)
  case room =>
    rw [exec_dPro_of_room (by rw [hbase]; exact hroom)]
    have hread : s.prologueRead.pro.toNat = gridValue s.grid 0 6 1 := by
      rw [State.prologueRead, BitVec.toNat_ofNat, State.unpacked, hbase]
      exact Nat.mod_eq_of_lt (gridValue_lt s.grid 0 6 1)
    rw [validatePrologue_eq, withFields_eq, hread]
    simp only [apply_ite Eff.outcome, apply_ite Host.Outcome.next, State.prologueRead, State.unpacked, hbase]
    rfl

end Sys2Proof.Machine

/-! R177: the length phase of `DECODE`. -/

namespace Sys2Proof.Machine

/-- R177 where a cell of the length field is missing. -/
theorem exec_dLen_of_short {s : State} {bw : Fin 9} (hbw : legalWidth s.bw = some bw)
    (h : s.gridSize < s.cur.toNat + lengthChunks bw.val) : exec .dLen s = .next (s.failed .cursorExhausted) := by
  rw [exec, execDLen, hbw]
  simp only [needRoom_of_short _ _ h]
  rfl

/-- `s` with the length cells read into `LEN`, reduced to 32 bits (R177, R166). -/
def State.lengthRead (s : State) (bw : Fin 9) : State :=
  { s.unpacked (lengthChunks bw.val) bw with len := BitVec.ofNat 32 ((s.unpacked (lengthChunks bw.val) bw).v % 2 ^ 32) }

/-- R177 where the cells of the length field are there: the payload's room decides. -/
theorem exec_dLen_of_room {s : State} {bw : Fin 9} (hbw : legalWidth s.bw = some bw)
    (h : s.cur.toNat + lengthChunks bw.val ≤ s.gridSize) :
    exec .dLen s = .next
      (if s.gridSize < s.cur.toNat + lengthChunks bw.val + payloadChunks (s.lengthRead bw).len.toNat bw.val then
        (s.lengthRead bw).failed .cursorExhausted
      else { s.lengthRead bw with phase := Phase.dPay }) := by
  have hcur : (s.lengthRead bw).cur.toNat = s.cur.toNat + lengthChunks bw.val := cursor_toNat s h
  have hexec : exec .dLen s = ((needRoom (payloadChunks (s.lengthRead bw).len.toNat bw.val) (s.lengthRead bw)).bind
      fun _ s => .ok () { s with phase := Phase.dPay }).outcome := by
    rw [exec, execDLen, hbw]
    simp only [needRoom_of_room _ _ h, Eff.bind, unpack_eq_unpacked _ _ _ h]
    rfl
  rw [hexec, ← hcur]
  by_cases hpay : s.gridSize < (s.lengthRead bw).cur.toNat + payloadChunks (s.lengthRead bw).len.toNat bw.val
  case pos => rw [if_pos hpay, needRoom_of_short _ _ hpay]; rfl
  case neg => rw [if_neg hpay, needRoom_of_room _ _ (Nat.le_of_not_lt hpay)]; rfl

/-- Settles O34: the two room checks stand before and behind the length field, which is read modulo `2^32`. -/
theorem lengthRead : Obligations.LengthRead := by
  intro s hbw hbw' hcur
  have hbase : s.cur.toNat = 6 := by rw [hcur]; rfl
  have hlegal := legalWidth_eq_some _ hbw hbw'
  refine ⟨fun hshort => ?short, fun hroom => ?room⟩
  case short => exact exec_dLen_of_short hlegal (by rw [hbase]; exact hshort)
  case room =>
    rw [exec_dLen_of_room hlegal (by rw [hbase]; exact hroom)]
    simp only [State.lengthRead, State.unpacked, hbase, BitVec.toNat_ofNat, Nat.mod_mod]
    rfl

end Sys2Proof.Machine

/-! R185: the payload integer and its bytes, at the list's end where `ToInt` appends and `ToBytes` drops a byte. -/

namespace Sys2Proof.Machine

theorem toInt_append_singleton (bs : List Byte) (b : Byte) : toInt (bs ++ [b]) = toInt bs * 256 + b.toNat :=
  List.foldl_append

theorem toInt_lt (bs : List Byte) : toInt bs < 2 ^ (8 * bs.length) := by
  induction bs using List.reverseRecOn with
  | nil => decide
  | append_singleton bs b ih =>
    have hb := b.isLt
    rw [toInt_append_singleton, List.length_append, List.length_singleton, Nat.mul_add 8, Nat.pow_add]
    omega

/-- `ToInt` of `size` bytes given by their index is their big-endian sum. -/
theorem toInt_map_range (f : Nat → Byte) (size : Nat) :
    toInt ((List.range size).map f) = ((List.range size).map fun i => (f i).toNat * 2 ^ (8 * (size - 1 - i))).sum := by
  induction size with
  | zero => rfl
  | succ n ih =>
    have hshift : ∀ i ∈ List.range n,
        (f i).toNat * 2 ^ (8 * (n - 1 - i)) * 256 = (f i).toNat * 2 ^ (8 * (n + 1 - 1 - i)) := by
      intro i hi
      have hexp : 8 * (n + 1 - 1 - i) = 8 * (n - 1 - i) + 8 := by
        have := List.mem_range.mp hi
        omega
      rw [hexp, Nat.pow_add, Nat.mul_assoc]
    rw [List.range_succ, List.map_append, List.map_append, List.sum_append, List.map_singleton, List.map_singleton,
      toInt_append_singleton, ih, ← List.sum_map_mul_right, List.map_congr_left hshift, List.sum_singleton,
      Nat.add_sub_cancel, Nat.sub_self, Nat.mul_zero, Nat.pow_zero, Nat.mul_one]

theorem map_range_getD (bs : List Byte) : ((List.range bs.length).map fun i => bs.getD i 0#8) = bs := by
  refine List.ext_getElem (by simp) fun i _ hi => ?_
  rw [List.getElem_map, List.getElem_range, List.getD_eq_getElem _ _ hi]

theorem byteAt_eq (v size i : Nat) : byteAt v size i = BitVec.ofNat 8 (v / 2 ^ (8 * (size - 1 - i))) := by
  refine BitVec.eq_of_toNat_eq ?_
  rw [byteAt, Nat.shiftRight_eq_div_pow, BitVec.toNat_ofNat, BitVec.toNat_ofNat, Nat.mod_mod]

/-- Byte `size` is the lowest, and the bytes before it are those of `v / 256`. -/
theorem toBytes_succ (v size : Nat) : toBytes v (size + 1) = toBytes (v / 256) size ++ [BitVec.ofNat 8 v] := by
  have hhigh : ∀ i ∈ List.range size, byteAt v (size + 1) i = byteAt (v / 256) size i := by
    intro i hi
    have hexp : 8 * (size + 1 - 1 - i) = 8 + 8 * (size - 1 - i) := by
      have := List.mem_range.mp hi
      omega
    rw [byteAt_eq, byteAt_eq, hexp, Nat.pow_add, Nat.div_div_eq_div_mul]
  have hlow : byteAt v (size + 1) size = BitVec.ofNat 8 v := by simp [byteAt_eq]
  rw [toBytes, List.range_succ, List.map_append, List.map_congr_left hhigh, List.map_singleton, hlow, toBytes]

theorem toBytes_toInt (bs : List Byte) : toBytes (toInt bs) bs.length = bs := by
  induction bs using List.reverseRecOn with
  | nil => rfl
  | append_singleton bs b ih =>
    have hb := b.isLt
    have hhigh : (toInt bs * 256 + b.toNat) / 256 = toInt bs := by omega
    have hlow : BitVec.ofNat 8 (toInt bs * 256 + b.toNat) = b := by
      refine BitVec.eq_of_toNat_eq ?_
      rw [BitVec.toNat_ofNat]
      omega
    rw [toInt_append_singleton, List.length_append, List.length_singleton, toBytes_succ, hhigh, hlow, ih]

theorem toBytes_getD_toNat (v : Nat) {size i : Nat} (hi : i < size) :
    ((toBytes v size).getD i 0#8).toNat = v / 2 ^ (8 * (size - 1 - i)) % 256 := by
  have hlen : i < (toBytes v size).length := by simpa [toBytes] using hi
  rw [List.getD_eq_getElem _ _ hlen]
  simp only [toBytes, List.getElem_map, List.getElem_range, byteAt_eq, BitVec.toNat_ofNat]

/-- Settles O39: a list is the list of its bytes by index, and both `ToInt` and `ToBytes` go one byte at a time. -/
theorem toBytesInvertsToInt : Obligations.ToBytesInvertsToInt := by
  refine fun bs => ⟨?sum, toInt_lt bs, toBytes_toInt bs, fun v _ _ _ hi => toBytes_getD_toNat v hi⟩
  case sum => rw [← toInt_map_range, map_range_getD]

end Sys2Proof.Machine

/-! R186, R187: the payload phase of `ENCODE`. -/

namespace Sys2Proof.Machine

/-- R186: the integer packed is the sum over the payload's bytes, transformed when `KEYOK = 1`. -/
theorem toInt_payloadBytes (s : State) (size : Nat) : toInt (s.payloadBytes size) = s.payloadValue s.keyok size :=
  toInt_map_range _ size

/-- R187: the payload's cells hold every integer of `size` bytes. -/
theorem payloadValue_lt (s : State) (size : Nat) {bw : Nat} (hbw : 0 < bw) :
    s.payloadValue s.keyok size < 2 ^ (payloadChunks size bw * bw) := by
  have hlt := toInt_lt (s.payloadBytes size)
  have hlen : (s.payloadBytes size).length = size := by simp [State.payloadBytes]
  rw [hlen, toInt_payloadBytes] at hlt
  exact Nat.lt_of_lt_of_le hlt (Nat.pow_le_pow_right (by decide) (le_ceilDiv_mul (8 * size) hbw))

/-- Settles O32: `E.PAY` packs the payload integer, which its cells can hold, from cell `CUR`. -/
theorem payloadWritten : Obligations.PayloadWritten := by
  intro s hwf hbw hbw' hkey hroom
  have hexec := exec_ePay_of_room (legalWidth_eq_some _ hbw hbw') (fun hk => bne_iff_ne.mpr (hkey hk)) hroom
  rw [toInt_payloadBytes, packed_of_lt (by exact payloadValue_lt s s.len.toNat hbw)] at hexec
  exact ⟨_, hexec, rfl, packGrid_wf _ _ _ _ hwf, packGrid_read _ _ _ _ hwf⟩

end Sys2Proof.Machine

/-! R189: the payload phase of `DECODE`. -/

namespace Sys2Proof.Machine

/-- R140: a key in use that is not empty has a stream of any size. -/
theorem keyok_and_streamUndefined_eq_false {s : State} (hkey : s.keyok = true → s.keyFilled = true) (size : Nat) :
    (s.keyok && s.streamUndefined size) = false := by
  cases hk : s.keyok with
  | false => rfl
  | true => rw [State.streamUndefined, hkey hk]; rfl

/-- R189: a byte stored is the payload integer's byte, transformed when `KEYOK = 1`. -/
theorem veil_byteAt (s : State) (v size i : Nat) : s.veil i (byteAt v size i) = s.payloadOut s.keyok v size i := by
  rw [byteAt_eq]
  rfl

/-- `PAY` of `s` with the `size` bytes of `v` stored from index 0 (R189). -/
def State.payStored (s : State) (v size : Nat) : Memory :=
  fillPay (fun i _ => s.payloadOut s.keyok v size i) size 0 s.pay

theorem storeLoop_eq_payStored (s : State) (v size : Nat) :
    storeLoop v size size 0 s = { s with pay := s.payStored v size } := by
  simp only [storeLoop_eq, veil_byteAt]
  rfl

theorem payStored_wf {s : State} (v size : Nat) (h : s.pay.wf = true) : (s.payStored v size).wf = true :=
  fillPay_wf _ size 0 h

theorem payStored_read {s : State} (v size : Nat) (h : s.pay.wf = true) (i : Nat) :
    (s.payStored v size).read i = if i < size then s.payloadOut s.keyok v size i else s.pay.read i := by
  rw [State.payStored, fillPay_read _ size 0 h]
  simp only [Nat.zero_le, true_and, Nat.zero_add]

/-- R189 where the cells of the payload are there and no key in use is empty. -/
theorem exec_dPay_of_room {s : State} {bw : Fin 9} (hbw : legalWidth s.bw = some bw)
    (hkey : s.keyok = true → s.keyFilled = true) (h : s.cur.toNat + payloadChunks s.len.toNat bw.val ≤ s.gridSize) :
    exec .dPay s = .next (finishCommand
      { s.unpacked (payloadChunks s.len.toNat bw.val) bw with
        pay := s.payStored ((s.unpacked (payloadChunks s.len.toNat bw.val) bw).v % 2 ^ (8 * s.len.toNat)) s.len.toNat,
        lenOut := s.len, bwOut := s.bw, obfOut := s.obf }) := by
  have hdef := keyok_and_streamUndefined_eq_false (s := s.unpacked (payloadChunks s.len.toNat bw.val) bw) hkey s.len.toNat
  rw [exec, execDPay, hbw]
  simp only [unpack_eq_unpacked _ _ _ h, Eff.bind, hdef, storeLoop_eq_payStored]
  rfl

/-- Settles O35: `D.PAY` stores the bytes of the payload's cells, and the store loop's bytes are known one by one. -/
theorem payloadStored : Obligations.PayloadStored := by
  intro s hwf hbw hbw' hkey hroom
  have hexec := exec_dPay_of_room (legalWidth_eq_some _ hbw hbw') (fun hk => bne_iff_ne.mpr (hkey hk)) hroom
  exact ⟨_, hexec, rfl, payStored_wf _ _ hwf, payStored_read _ _ hwf⟩

end Sys2Proof.Machine

/-! R204: the three checks of `ENCODE`, in their order. -/

namespace Sys2Proof.Machine

/-- R204 where `BW_IN` is no legal width: no other check is looked at. -/
theorem exec_eCheck_of_illegal {s : State} (hbw : ¬(1 ≤ s.bwIn.toNat ∧ s.bwIn.toNat ≤ 7)) :
    exec .eCheck s = .next (s.failed .invalidBitWidth) := by
  rw [exec, execECheck, legalWidth_eq_none _ hbw]
  rfl

/-- R204 where the width is legal and the key present is empty: the size is not looked at. -/
theorem exec_eCheck_of_empty_key {s : State} (hbw : 1 ≤ s.bwIn.toNat) (hbw' : s.bwIn.toNat ≤ 7)
    (hkey : (s.keyPresent && !s.keyFilled) = true) : exec .eCheck s = .next (s.failed .invalidKey) := by
  rw [exec, execECheck, legalWidth_eq_some _ hbw hbw']
  exact if_pos hkey

theorem keyPresent_and_not_keyFilled_iff (s : State) :
    (s.keyPresent && !s.keyFilled) = true ↔ s.keyCtl = 1#1 ∧ s.keyLen = 0#32 := by
  rw [Bool.and_eq_true, not_keyFilled_iff, State.keyPresent, beq_iff_eq]

/-- Settles O29: each check is reached only where those before it pass. -/
theorem encodeChecksInOrder : Obligations.EncodeChecksInOrder := by
  intro s
  by_cases hwidth : s.bwIn.toNat < 1 ∨ 7 < s.bwIn.toNat
  · rw [if_pos hwidth]
    exact exec_eCheck_of_illegal (by omega)
  · rw [if_neg hwidth]
    by_cases hempty : s.keyCtl = 1#1 ∧ s.keyLen = 0#32
    · rw [if_pos hempty]
      exact exec_eCheck_of_empty_key (by omega) (by omega) ((keyPresent_and_not_keyFilled_iff s).mpr hempty)
    · have hkey : s.keyPresent = true → s.keyFilled = true := by
        simpa using mt (keyPresent_and_not_keyFilled_iff s).mp hempty
      rw [if_neg hempty, exec_eCheck_of_legal (by omega) (by omega) hkey, apply_ite Host.Outcome.next]
      rfl

end Sys2Proof.Machine

/-! R24, R90, R91: decoding undoes encoding, and encoding undoes decoding. -/

namespace Sys2Proof.Machine

theorem decode_encode (i : Instr) : decode (encode i) = .ok i := by
  cases i <;> rfl

/-- R91: an operation code that selects a command is the low half of that command's word. -/
theorem encode_of_decodeOpc {opc : BitVec 4} {i : Instr} (h : decodeOpc opc = some i) :
    encode i = .cmd (opc.setWidth 8) := by
  unfold decodeOpc at h
  split at h
  case h_7 => cases h
  all_goals
    rename_i hopc
    cases h
    rw [← BitVec.ofNat_toNat, hopc]
    rfl

/-- R90: with `RSV` clear a command's word is its `OPC`. -/
theorem setWidth_opcOf {c : BitVec 8} (h : c.toNat / 16 = 0) : (opcOf c).setWidth 8 = c := by
  refine BitVec.eq_of_toNat_eq ?_
  rw [BitVec.toNat_setWidth, opcOf_toNat]
  omega

theorem encode_of_decode_cmd {c : BitVec 8} {i : Instr} (h : decode (.cmd c) = .ok i) : encode i = .cmd c := by
  by_cases hrsv : c.toNat / 16 = 0
  · rw [decode_cmd_of_rsv_zero hrsv] at h
    cases hopc : decodeOpc (opcOf c) with
    | none => rw [hopc] at h; cases h
    | some j =>
      rw [hopc] at h
      cases h
      rw [encode_of_decodeOpc hopc, setWidth_opcOf hrsv]
  · rw [decode_cmd_of_reserved hrsv] at h
    cases h

theorem encode_of_decode_phase {p : BitVec 4} {i : Instr} (h : decode (.phase p) = .ok i) : encode i = .phase p := by
  simp only [decode, decodePhase] at h
  split at h
  case h_11 => cases h
  all_goals
    rename_i hp
    cases h
    exact congrArg InstrWord.phase (BitVec.eq_of_toNat_eq hp.symm)

theorem isCommand_of_decode_cmd {c : BitVec 8} {i : Instr} (h : decode (.cmd c) = .ok i) : isCommand i = true := by
  have henc := encode_of_decode_cmd h
  cases i <;> cases henc <;> rfl

/-- Settles O1: the decoder answers an instruction on that instruction's own word alone, in both formats. -/
theorem decodeAndEncodeAgree : Obligations.DecodeAndEncodeAgree := by
  refine ⟨decode_encode, fun w i h => ?_⟩
  cases w with
  | cmd c => exact encode_of_decode_cmd h
  | phase p => exact encode_of_decode_phase h

/-- Settles O2: the table's words are those of the encoder. -/
theorem tableWordsDecode : Obligations.TableWordsDecode :=
  ⟨decode_encode .encode, decode_encode .decode, decode_encode .capacity, decode_encode .xorapply,
    decode_encode .lowones, decode_encode .highmask, decode_encode .idle, decode_encode .eCheck, decode_encode .ePro,
    decode_encode .eLen, decode_encode .ePay, decode_encode .dPro, decode_encode .dLen, decode_encode .dPay,
    decode_encode .xRun, decode_encode .qRun⟩

end Sys2Proof.Machine

/-! R21, R200, R265: the host's writes to the registers, and what reads them back. -/

namespace Sys2Proof.Machine

/-- R200 for a command that is accepted: R27 and the first phase. -/
theorem issueCommand_of_not_busy (c : BitVec 8) (first : BitVec 4) {s : State} (h : s.run ≠ .busy) :
    issueCommand c first s = .next (s.started c first) := if_neg h

/-- The host's bus is wider than a register, which keeps the low bits (R21). -/
theorem setWidth_ofNat (w v : Nat) : (BitVec.ofNat w v).setWidth 64 = BitVec.ofNat 64 (v % 2 ^ w) := by
  refine BitVec.eq_of_toNat_eq ?_
  rw [BitVec.toNat_setWidth, BitVec.toNat_ofNat, BitVec.toNat_ofNat]

/-- The input registers of R21 by number, with their widths. -/
def inputWidths : List (Nat × Nat) := [(3, 16), (4, 16), (5, 4), (6, 1), (7, 32), (8, 32), (9, 4)]

theorem hostWrite_of_not_busy {n : Nat} (hn : n ≠ 0) (hn' : n ≤ 14) (v : Nat) {s : State} (h : s.run ≠ .busy) :
    hostWrite n v s = writeInput n v s := by
  rw [hostWrite, if_neg (Nat.not_lt.mpr hn'), if_neg h, if_neg hn]

theorem writeInput_next {n : Nat} (hn : n ≠ 0) (hn' : n ≤ 14) (v : Nat) (s : State) :
    ∃ t, writeInput n v s = .next t := by
  have hpos : 1 ≤ n := Nat.pos_of_ne_zero hn
  interval_cases n <;> exact ⟨_, rfl⟩

/-- A host write past `CMD` reaches the input registers alone. -/
theorem writeInput_frame {n v : Nat} {s t : State} (h : writeInput n v s = .next t) :
    t = { s with
      gridH := t.gridH, gridW := t.gridW, bwIn := t.bwIn, keyCtl := t.keyCtl, keyLen := t.keyLen, payLen := t.payLen,
      arg := t.arg } := by
  unfold writeInput at h
  split at h <;> cases h <;> rfl

/-- What the registers read after an input register is written: it reads the low bits, every other one as before. -/
theorem registerValue_writeInput {n w : Nat} (h : (n, w) ∈ inputWidths) (v : Nat) {s t : State}
    (ht : writeInput n v s = .next t) (m : Nat) :
    registerValue m t = if m = n then some (BitVec.ofNat 64 (v % 2 ^ w)) else registerValue m s := by
  simp only [inputWidths, List.mem_cons, Prod.mk.injEq, List.not_mem_nil, or_false] at h
  rcases h with ⟨rfl, rfl⟩ | ⟨rfl, rfl⟩ | ⟨rfl, rfl⟩ | ⟨rfl, rfl⟩ | ⟨rfl, rfl⟩ | ⟨rfl, rfl⟩ | ⟨rfl, rfl⟩
  all_goals
    cases ht
    rw [← setWidth_ofNat]
    split
    case isTrue hm => rw [hm]; rfl
    case isFalse hm =>
      unfold registerValue
      split <;> simp_all

/-- Settles O4: the six commands are the issue of R200 with their words and first phases. -/
theorem commandStartsCleared : Obligations.CommandStartsCleared := fun s h =>
  ⟨issueCommand_of_not_busy 0x01#8 Phase.eCheck h, issueCommand_of_not_busy 0x02#8 Phase.dPro h,
    issueCommand_of_not_busy 0x03#8 Phase.qRun h, issueCommand_of_not_busy 0x04#8 Phase.xRun h,
    issueCommand_of_not_busy 0x05#8 Phase.qRun h, issueCommand_of_not_busy 0x06#8 Phase.qRun h,
    fun _ _ hdec => writeCommand_of_ok hdec s⟩

/-- Settles O5: both the host port and the issue of a command look at `BUSY` first. -/
theorem writesWhileBusyIgnored : Obligations.WritesWhileBusyIgnored :=
  fun _ _ v hrun hn => ⟨hostWrite_of_busy hn v hrun, fun _ hi => exec_command_of_busy hi hrun⟩

/-- Settles O7: the write reaches one input register, and the read of it shows the bits it kept. -/
theorem inputRegisterKeepsLowBits : Obligations.InputRegisterKeepsLowBits := by
  rintro ⟨n, w⟩ hp v s hrun
  have hn : n ≠ 0 ∧ n ≤ 14 := (by decide : ∀ p ∈ inputWidths, p.1 ≠ 0 ∧ p.1 ≤ 14) (n, w) hp
  obtain ⟨t, ht⟩ := writeInput_next hn.1 hn.2 v s
  have hread := registerValue_writeInput hp v ht
  refine ⟨t, (hostWrite_of_not_busy hn.1 hn.2 v hrun).trans ht, (hread n).trans (if_pos rfl),
    fun m hm => (hread m).trans (if_neg hm), ?frame⟩
  case frame => rw [writeInput_frame ht]

theorem registerValue_some {n : Nat} (hn : n ≤ 14) (s : State) : ∃ x, registerValue n s = some x := by
  interval_cases n <;> exact ⟨_, rfl⟩

theorem registerValue_none {n : Nat} (hn : 14 < n) (s : State) : registerValue n s = none := by
  unfold registerValue
  split
  case h_16 => rfl
  all_goals omega

/-- A host read of a register that is not one of the two free ones while `BUSY` (R265). -/
theorem hostRead_of_current {n : Nat} {s : State} (h : s.run = .busy → n ≠ 1 ∧ n ≠ 14) {x : BitVec 64}
    (hx : registerValue n s = some x) : hostRead n s = .next { s with readData := x } := by
  rw [hostRead, if_neg (fun hc => (h hc.1).1 hc.2), if_neg (fun hc => (h hc.1).2 hc.2), hx]

theorem hostRead_of_no_register {n : Nat} (hn : 14 < n) (s : State) : hostRead n s = .refused (.noSuchRegister n) := by
  rw [hostRead, if_neg (by omega), if_neg (by omega), registerValue_none hn]

/-- Settles O8: `writeInput` gives the read-only registers no effect, and the larger numbers no meaning. -/
theorem otherRegisterNumbers : Obligations.OtherRegisterNumbers := by
  refine fun s v => ⟨fun hrun n hn => ?readOnly, fun n hn => ⟨if_pos hn, hostRead_of_no_register hn s⟩⟩
  case readOnly =>
    have hbound : n ≠ 0 ∧ n ≤ 14 := (by decide : ∀ n ∈ [1, 2, 10, 11, 12, 13, 14], n ≠ 0 ∧ n ≤ 14) n hn
    rw [hostWrite_of_not_busy hbound.1 hbound.2 v hrun]
    fin_cases hn <;> rfl

/-- Log entry 6: the issue of a command keeps the command's own word. -/
theorem exec_of_decode_cmd {c : BitVec 8} {i : Instr} (hdec : decode (.cmd c) = .ok i) {s : State} (h : s.run ≠ .busy) :
    ∃ first, exec i s = .next (s.started c first) := by
  have henc := encode_of_decode_cmd hdec
  cases i with
  | encode | decode | capacity | xorapply | lowones | highmask =>
    cases henc
    exact ⟨_, issueCommand_of_not_busy _ _ h⟩
  | idle | eCheck | ePro | eLen | ePay | dPro | dLen | dPay | xRun | qRun => cases henc

/-- Log entry 6: so does the refusal of a value that selects no command. -/
theorem writeCommand_cmd (c : BitVec 8) {s : State} (h : s.run ≠ .busy) :
    ∃ t, writeCommand c s = .next t ∧ t.cmd = c := by
  cases hdec : decode (.cmd c) with
  | ok i =>
    obtain ⟨first, hexec⟩ := exec_of_decode_cmd hdec h
    exact ⟨_, (writeCommand_of_ok hdec s).trans hexec, rfl⟩
  | error e => exact ⟨_, (writeCommand_of_error hdec s).trans (illegalCommand_of_not_busy c h), rfl⟩

/-- Settles O56: an accepted write keeps its word whatever it selects, and `CMD` is no register the host sees. -/
theorem cmdKeepsAcceptedWrite : Obligations.CmdKeepsAcceptedWrite := by
  refine ⟨fun v s => ?writes, fun s => hostRead_of_current (fun _ => by decide) rfl⟩
  case writes =>
    by_cases h : s.run = .busy
    · exact ⟨s, hostWrite_of_busy (by decide) v h, (if_pos h).symm⟩
    · rw [hostWrite_cmd_of_not_busy v h, if_neg h]
      exact writeCommand_cmd _ h

/-- Settles O57: at rest no register is free, and each shows its field of R21's table. -/
theorem readsAtRestAnswerRegisters : Obligations.ReadsAtRestAnswerRegisters := by
  refine fun s => ⟨fun hrun n hn => ?reads, fun p hp => ?fields⟩
  case reads =>
    obtain ⟨x, hx⟩ := registerValue_some hn s
    exact ⟨x, hx, hostRead_of_current (fun h => absurd h hrun) hx⟩
  case fields =>
    fin_cases hp <;> simp only [BitVec.ofNat_toNat, BitVec.setWidth_eq] <;> rfl

/-- The value drawn for `CUR` fits its width (R265). -/
theorem drawCursor_toNat (d : Nat) (s : State) :
    (drawCursor d s).toNat = d % ((completed s).cur.toNat + 1) := by
  have hlt : d % ((completed s).cur.toNat + 1) < (completed s).cur.toNat + 1 := Nat.mod_lt _ (Nat.succ_pos _)
  have hcur := (completed s).cur.isLt
  rw [drawCursor, BitVec.toNat_ofNat, Nat.mod_eq_of_lt (by omega)]

/-- The value drawn for `PHASE` is `IDLE` or a phase of the running command (R265). -/
theorem drawPhase_mem (d : Nat) (s : State) : drawPhase d s ∈ Phase.idle :: phasesOf s.phase := by
  have hlt : d % ((phasesOf s.phase).length + 1) < (Phase.idle :: phasesOf s.phase).length :=
    Nat.mod_lt _ (Nat.succ_pos _)
  rw [drawPhase, List.getD_eq_getElem _ _ hlt]
  exact List.getElem_mem hlt

/-- Settles O6: the two free fields are drawn within their bounds, every other register is read as at rest. -/
theorem readsWhileBusy : Obligations.ReadsWhileBusy := by
  refine fun s hrun => ⟨fun n hn hn1 hn14 => ?current, ?status, ?cursor⟩
  case current =>
    obtain ⟨x, hx⟩ := registerValue_some hn s
    exact ⟨x, hx, hostRead_of_current (fun _ => ⟨hn1, hn14⟩) hx⟩
  case status =>
    have hread : hostRead 1 s = .next { s with
        readData := (statusWord s.run (drawPhase (Config.freeDraw s.draws) s)).setWidth 64, draws := s.draws + 1 } :=
      if_pos ⟨hrun, rfl⟩
    rw [← hrun]
    exact ⟨_, drawPhase_mem _ s, hread⟩
  case cursor =>
    have hread : hostRead 14 s = .next { s with
        readData := (drawCursor (Config.freeDraw s.draws) s).setWidth 64, draws := s.draws + 1 } :=
      (if_neg (fun h => absurd h.2 (by decide))).trans (if_pos ⟨hrun, rfl⟩)
    rw [← BitVec.ofNat_toNat, drawCursor_toNat] at hread
    exact ⟨_, Nat.le_of_lt_succ (Nat.mod_lt _ (Nat.succ_pos _)), hread⟩

end Sys2Proof.Machine

/-! R60, R266: the host's accesses to its own memories. -/

namespace Sys2Proof.Machine

/-- Settles O13: the host port looks at `BUSY` before it reaches a memory. -/
theorem hostMemoryAccessWhileBusyRefused : Obligations.HostMemoryAccessWhileBusyRefused :=
  fun _ _ _ _ hrun => ⟨if_pos hrun, if_pos hrun⟩

theorem memoriesWf_iff (s : State) : s.memoriesWf = true ↔ s.grid.wf = true ∧ s.pay.wf = true ∧ s.key.wf = true := by
  simp only [State.memoriesWf, Bool.and_eq_true, and_assoc]

theorem memory_wf {s : State} (h : s.memoriesWf = true) (sp : Space) : (s.memory sp).wf = true := by
  obtain ⟨hgrid, hpay, hkey⟩ := (memoriesWf_iff s).mp h
  cases sp with
  | grid => exact hgrid
  | pay => exact hpay
  | key => exact hkey

theorem setMemory_memoriesWf {s : State} (h : s.memoriesWf = true) (sp : Space) {m : Memory} (hm : m.wf = true) :
    (s.setMemory sp m).memoriesWf = true := by
  obtain ⟨hgrid, hpay, hkey⟩ := (memoriesWf_iff s).mp h
  rw [memoriesWf_iff]
  cases sp with
  | grid => exact ⟨hm, hpay, hkey⟩
  | pay => exact ⟨hgrid, hm, hkey⟩
  | key => exact ⟨hgrid, hpay, hm⟩

theorem setMemory_frame (s : State) (sp : Space) (m : Memory) :
    { s.setMemory sp m with grid := s.grid, pay := s.pay, key := s.key } = s := by
  cases sp <;> rfl

/-- R60: a byte of any space after a write to one of them. -/
theorem setMemory_write_read {s : State} (h : s.memoriesWf = true) (sp sp' : Space) (a a' : Nat) (b : Byte) :
    ((s.setMemory sp ((s.memory sp).write a b)).memory sp').read a' =
      if sp' = sp ∧ a' = a then b else (s.memory sp').read a' := by
  by_cases hsp : sp' = sp
  · subst hsp
    rw [setMemory_memory_same, Memory.read_write (memory_wf h sp')]
    simp only [true_and]
  · rw [setMemory_memory_other s sp sp' _ hsp, if_neg (fun hc => hsp hc.1)]

/-- Settles O12: the store is one write to one canonical memory. -/
theorem hostStoreReadsBack : Obligations.HostStoreReadsBack := by
  intro s sp a b hrun hwf
  have hread := setMemory_write_read hwf sp
  refine ⟨_, if_neg hrun, setMemory_memoriesWf hwf sp (Memory.wf_write (memory_wf hwf sp) a b), setMemory_frame s sp _,
    ?load, fun sp' a' hother => ?others⟩
  case load => rw [hostLoad, if_neg (by rwa [setMemory_run]), hread, if_pos ⟨rfl, rfl⟩]
  case others => rw [hread, if_neg (fun hc => hother.elim (absurd hc.1) (absurd hc.2))]

end Sys2Proof.Machine

/-! R123, R124, R153: the three queries, whose one phase `Q.RUN` tells them apart by `CMD` (log entry 6). -/

namespace Sys2Proof.Machine

theorem exec_qRun_of_capacity {s : State} (h : s.cmd = 0x03#8) : exec .qRun s = (queryCapacity s).outcome := by
  rw [exec, execQRun, h]
  rfl

theorem exec_qRun_of_lowones {s : State} (h : s.cmd = 0x05#8) : exec .qRun s = (queryLowones s).outcome := by
  rw [exec, execQRun, h]
  rfl

theorem exec_qRun_of_highmask {s : State} (h : s.cmd = 0x06#8) : exec .qRun s = (queryHighmask s).outcome := by
  rw [exec, execQRun, h]
  rfl

/-- Settles O15: `ARG` selects one of the nine low masks, or none. -/
theorem lowonesResult : Obligations.LowonesResult := by
  refine ⟨fun s h => issueCommand_of_not_busy _ _ h, fun s hcmd => ?query⟩
  case query =>
    rw [exec_qRun_of_lowones hcmd, queryLowones]
    by_cases h : s.arg.toNat ≤ 8
    · rw [if_pos h, maskWidth_eq_some _ h, ← lowOnes_toNat ⟨s.arg.toNat, by omega⟩, BitVec.ofNat_toNat]
      rfl
    · rw [if_neg h, maskWidth_eq_none _ h]
      rfl

/-- Settles O16: as for `LOWONES`, with the high masks. -/
theorem highmaskResult : Obligations.HighmaskResult := by
  refine ⟨fun s h => issueCommand_of_not_busy _ _ h, fun s hcmd => ?query⟩
  case query =>
    rw [exec_qRun_of_highmask hcmd, queryHighmask]
    by_cases h : s.arg.toNat ≤ 8
    · rw [if_pos h, maskWidth_eq_some _ h, ← highMask_toNat ⟨s.arg.toNat, by omega⟩, BitVec.ofNat_toNat]
      rfl
    · rw [if_neg h, maskWidth_eq_none _ h]
      rfl

/-- Settles O18: the two bounds of R150's floor leave room for both counts rounded up. -/
theorem capacityCheckSuffices : Obligations.CapacityCheckSuffices :=
  fun _ _ _ hbw hbw' hsize => room_of_le_available hbw hbw' hsize

/-- R153: `RESULT` holds `Available` of every grid, negative values included. -/
theorem toInt_ofInt_available (s : State) {bw : Nat} (hbw : bw ≤ 7) :
    (BitVec.ofInt 64 (available s.gridSize bw)).toInt = available s.gridSize bw := by
  have hN := gridSize_lt s
  have hle := available_le s.gridSize bw
  have hlt := lt_available s.gridSize bw
  refine BitVec.toInt_ofInt_eq_self (by decide) ?_ ?_ <;> interval_cases bw <;> omega

/-- Settles O19: `CAPACITY` writes the formula of R150, whose values fit 64 bits. -/
theorem capacityResult : Obligations.CapacityResult := by
  refine ⟨fun s h => issueCommand_of_not_busy _ _ h, fun s hcmd => ?query⟩
  case query =>
    rw [exec_qRun_of_capacity hcmd, queryCapacity]
    refine ⟨fun hbw hbw' => ?legal, fun hbw => ?illegal⟩
    case legal =>
      rw [legalWidth_eq_some _ hbw hbw']
      refine ⟨_, rfl, (toInt_ofInt_available s hbw').trans ?_⟩
      exact Int.sub_sub _ 4 1
    case illegal =>
      rw [legalWidth_eq_none _ (by omega)]
      rfl

end Sys2Proof.Machine

/-! R141, R143: `XORAPPLY` and its phase. -/

namespace Sys2Proof.Machine

theorem keyUsable_iff (s : State) : s.keyUsable = true ↔ s.keyCtl = 1#1 ∧ s.keyLen ≠ 0#32 := by
  simp only [State.keyUsable, State.keyPresent, State.keyFilled, Bool.and_eq_true, beq_iff_eq, bne_iff_ne]

/-- `PAY` of `s` with its `PAY_LEN` bytes transformed in place (R143). -/
def State.payXored (s : State) : Memory := fillPay (fun i b => s.xorByte i b) s.payLen.toNat 0 s.pay

theorem payXored_wf {s : State} (h : s.pay.wf = true) : s.payXored.wf = true := fillPay_wf _ _ 0 h

theorem payXored_read {s : State} (h : s.pay.wf = true) (i : Nat) :
    s.payXored.read i =
      if i < s.payLen.toNat then s.pay.read i ^^^ s.key.read (i % s.keyLen.toNat) else s.pay.read i := by
  rw [State.payXored, fillPay_read _ _ 0 h]
  simp only [Nat.zero_le, true_and, Nat.zero_add]
  rfl

theorem exec_xRun_of_usable {s : State} (h : s.keyUsable = true) :
    exec .xRun s = .next (finishCommand { s with pay := s.payXored }) := by
  rw [exec, execXRun, if_pos h, xorLoop_eq]
  rfl

theorem exec_xRun_of_unusable {s : State} (h : s.keyUsable = false) : exec .xRun s = .next (s.failed .invalidKey) := by
  rw [exec, execXRun, if_neg (Bool.eq_false_iff.mp h)]
  rfl

/-- Settles O37: the key is checked before the loop, and the loop's bytes are known one by one. -/
theorem xorapplyResult : Obligations.XorapplyResult := by
  refine ⟨fun s h => issueCommand_of_not_busy _ _ h, fun s => ⟨fun hkey => ?unusable, fun hctl hlen hwf => ?usable⟩⟩
  case unusable =>
    refine exec_xRun_of_unusable (Bool.eq_false_iff.mpr fun h => ?_)
    obtain ⟨hctl, hlen⟩ := (keyUsable_iff s).mp h
    obtain hkey | hkey := hkey
    · rw [hkey] at hctl
      exact absurd hctl (by decide)
    · exact hlen hkey
  case usable =>
    exact ⟨_, exec_xRun_of_usable ((keyUsable_iff s).mpr ⟨hctl, hlen⟩), rfl, payXored_wf hwf, payXored_read hwf⟩

/-- The state a `XORAPPLY` with a usable key ends in. -/
def State.xored (s : State) : State := finishCommand { s.started 0x04#8 Phase.xRun with pay := s.payXored }

theorem exec_xorapply_of_not_busy {s : State} (h : s.run ≠ .busy) :
    exec .xorapply s = .next (s.started 0x04#8 Phase.xRun) := if_neg h

theorem runCommand_xorapply {s : State} (hrun : s.run ≠ .busy) (hkey : s.keyUsable = true) :
    runCommand .xorapply s = .next s.xored := by
  have hexec : exec .xRun (s.started 0x04#8 Phase.xRun) = .next s.xored := exec_xRun_of_usable hkey
  rw [runCommand_of_next (exec_xorapply_of_not_busy hrun), maxPhases, runPhases_of_busy rfl rfl hexec,
    runPhases_of_not_busy (by simp [State.xored])]

/-- R141: transforming twice with one key gives every byte back. -/
theorem payXored_payXored {s : State} (h : s.pay.wf = true) : s.xored.payXored = s.pay := by
  have hwf : s.xored.pay.wf = true := payXored_wf h
  refine Memory.ext_of_wf (payXored_wf hwf) h fun i => ?_
  have hfirst : s.xored.pay.read i = _ := payXored_read h i
  have hsecond : s.xored.payXored.read i =
      if i < s.payLen.toNat then s.xored.pay.read i ^^^ s.key.read (i % s.keyLen.toNat) else s.xored.pay.read i :=
    payXored_read hwf i
  by_cases hi : i < s.payLen.toNat
  · rw [hsecond, hfirst, if_pos hi, if_pos hi, BitVec.xor_assoc, BitVec.xor_self, BitVec.xor_zero]
  · rw [hsecond, hfirst, if_neg hi, if_neg hi]

/-- Settles O38: the second command starts from the first one's bytes, with the same key. -/
theorem xorapplyIsSelfInverse : Obligations.XorapplyIsSelfInverse := by
  intro s hrun hctl hlen hwf
  have hkey := (keyUsable_iff s).mpr ⟨hctl, hlen⟩
  refine ⟨s.xored, s.xored.xored, runCommand_xorapply hrun hkey, runCommand_xorapply nofun hkey, fun i hi => ?below,
    fun i hi => ?above, payXored_payXored hwf⟩
  case below => exact (payXored_read hwf i).trans (if_pos hi)
  case above => exact (payXored_read hwf i).trans (if_neg (Nat.not_lt.mpr hi))

end Sys2Proof.Machine

/-! R60, R61, R200: what a phase leaves alone, from any state and however it ends. -/

namespace Sys2Proof.Machine

section Ends

variable {α β : Type} {P : State → Prop}

/-- Whether it goes on or raises, `x` does so in a state that `P` holds of. -/
def Eff.Ends (P : State → Prop) : Eff α → Prop
  | .ok _ s => P s
  | .raise _ s => P s
  | .stop _ => True

theorem Eff.ends_bind {x : Eff α} {k : α → State → Eff β} (hx : x.Ends P) (hk : ∀ a s, P s → (k a s).Ends P) :
    (x.bind k).Ends P := by
  cases x with
  | ok a s => exact hk a s hx
  | raise f s => exact hx
  | stop r => trivial

theorem Eff.of_outcome_next {x : Eff Unit} (hfail : ∀ f s, P s → P (failEntry f s)) (hx : x.Ends P) {t : State}
    (h : x.outcome = .next t) : P t := by
  cases x with
  | ok a s => cases h; exact hx
  | raise f s => cases h; exact hfail f s hx
  | stop r => cases h

/-- A phase keeps what its pseudocode and failure entry keep (R242). -/
theorem Eff.keeps_of_outcome_next (f : State → State) (hfail : ∀ e s, f (failEntry e s) = f s) {x : Eff Unit}
    {s t : State} (hx : x.Ends fun t => f t = f s) (h : x.outcome = .next t) : f t = f s :=
  Eff.of_outcome_next (P := fun t => f t = f s) (fun e s h => (hfail e s).trans h) hx h

section Cursor

variable (hcur : ∀ s c, P s → P { s with cur := c })
include hcur

theorem next_ends {s : State} (h : P s) : (next s).Ends P := by
  unfold next
  split
  · exact h
  · exact hcur s _ h

variable (hgrid : ∀ s k b, P s → P { s with grid := s.grid.write k b })
include hgrid in
theorem putChunk_ends (c : Nat) (bw : Fin 9) {s : State} (h : P s) : (putChunk c bw s).Ends P := by
  refine Eff.ends_bind (next_ends hcur h) fun kv t ht => ?_
  unfold writeCell
  split
  · exact hgrid t _ _ ht
  · trivial

variable (hregs : ∀ s v nc ci, P s → P { s with v := v, nc := nc, ci := ci })
include hregs

theorem unpackLoop_ends (bw : Fin 9) (left i : Nat) {s : State} (h : P s) : (unpackLoop bw left i s).Ends P := by
  induction left generalizing i s with
  | zero => exact hregs s _ _ _ h
  | succ left ih =>
    exact Eff.ends_bind (Eff.ends_bind (next_ends hcur (hregs s s.v s.nc _ h)) fun _ _ h => h) fun _ s h =>
      ih _ (hregs s _ s.nc s.ci h)

theorem unpack_ends (n : Nat) (bw : Fin 9) {s : State} (h : P s) : (unpack n bw s).Ends P :=
  Eff.ends_bind (unpackLoop_ends hcur hregs bw n 0 (hregs s _ _ s.ci h)) fun _ _ h => h

include hgrid

theorem packLoop_ends (bw : Fin 9) (left i : Nat) {s : State} (h : P s) : (packLoop bw left i s).Ends P := by
  induction left generalizing i s with
  | zero => exact hregs s s.v s.nc _ h
  | succ left ih =>
    exact Eff.ends_bind (putChunk_ends hcur hgrid _ bw (hregs s s.v s.nc _ h)) fun _ s h =>
      ih _ (hregs s _ s.nc s.ci h)

theorem pack_ends (val n : Nat) (bw : Fin 9) {s : State} (h : P s) : (pack val n bw s).Ends P :=
  packLoop_ends hcur hgrid hregs bw n 0 (hregs s _ _ s.ci h)

end Cursor

theorem needRoom_ends (n : Nat) {s : State} (h : P s) : (needRoom n s).Ends P := by
  unfold needRoom
  split <;> exact h

end Ends

/-- What no phase writes: the input registers, `CMD`, `KEY` and the model's own fields. -/
def State.fixed (s : State) : State :=
  { State.reset with
    cmd := s.cmd, gridH := s.gridH, gridW := s.gridW, bwIn := s.bwIn, keyCtl := s.keyCtl, keyLen := s.keyLen,
    payLen := s.payLen, arg := s.arg, key := s.key, host := s.host, readData := s.readData, draws := s.draws }

/-- What the packer's phases leave alone. -/
def State.fixedByPack (s : State) : State := { s.fixed with pay := s.pay }

/-- What the phases that write no memory leave alone. -/
def State.fixedByRead (s : State) : State := { s.fixed with grid := s.grid, pay := s.pay }

/-- What the phases that store into `PAY` leave alone. -/
def State.fixedByStore (s : State) : State := { s.fixed with grid := s.grid }

theorem pack_fixed (val n : Nat) (bw : Fin 9) (s : State) :
    (pack val n bw s).Ends fun t => t.fixedByPack = s.fixedByPack :=
  pack_ends (fun _ _ h => h) (fun _ _ _ h => h) (fun _ _ _ _ h => h) val n bw rfl

theorem unpack_fixed (n : Nat) (bw : Fin 9) (s : State) : (unpack n bw s).Ends fun t => t.fixedByRead = s.fixedByRead :=
  unpack_ends (fun _ _ h => h) (fun _ _ _ _ h => h) n bw rfl

theorem needRoom_fixed (n : Nat) (s : State) : (needRoom n s).Ends fun t => t.fixedByRead = s.fixedByRead :=
  needRoom_ends n rfl

theorem validatePrologue_fixed (s : State) : (validatePrologue s).Ends fun t => t.fixedByRead = s.fixedByRead := by
  rw [validatePrologue_eq]
  split_ifs <;> exact rfl

theorem queryCapacity_fixed (s : State) : (queryCapacity s).Ends fun t => t.fixedByRead = s.fixedByRead := by
  unfold queryCapacity
  split <;> exact rfl

theorem queryLowones_fixed (s : State) : (queryLowones s).Ends fun t => t.fixedByRead = s.fixedByRead := by
  unfold queryLowones
  split <;> exact rfl

theorem queryHighmask_fixed (s : State) : (queryHighmask s).Ends fun t => t.fixedByRead = s.fixedByRead := by
  unfold queryHighmask
  split <;> exact rfl

/-- Log entry 9: the four phases that use `BW` stop where it is no legal width. -/
theorem exec_of_no_width {s : State} (h : legalWidth s.bw = none) :
    ∀ i ∈ [Instr.eLen, .ePay, .dLen, .dPay], exec i s = .fault (.widthNotLegal s.bw) := by
  intro i hi
  fin_cases hi
  · rw [exec, execELen, h]
  · rw [exec, execEPay, h]
  · rw [exec, execDLen, h]
  · rw [exec, execDPay, h]

theorem legalWidth_of_exec_next {i : Instr} {s t : State} (hi : i ∈ [Instr.eLen, .ePay, .dLen, .dPay])
    (h : exec i s = .next t) : ∃ bw, legalWidth s.bw = some bw := by
  cases hbw : legalWidth s.bw with
  | none => rw [exec_of_no_width hbw i hi] at h; cases h
  | some bw => exact ⟨bw, rfl⟩

theorem exec_eCheck_fixed {s t : State} (h : exec .eCheck s = .next t) : t.fixedByRead = s.fixedByRead := by
  rw [encodeChecksInOrder s] at h
  cases h
  split_ifs <;> rfl

theorem exec_ePro_fixed {s t : State} (h : exec .ePro s = .next t) : t.fixedByPack = s.fixedByPack := by
  refine Eff.keeps_of_outcome_next State.fixedByPack (fun _ _ => rfl) ?_ h
  exact Eff.ends_bind (pack_fixed _ _ _ s.withPrologue) fun _ _ h => h

theorem exec_eLen_fixed {s t : State} (h : exec .eLen s = .next t) : t.fixedByPack = s.fixedByPack := by
  obtain ⟨bw, hbw⟩ := legalWidth_of_exec_next (by decide) h
  rw [exec, execELen, hbw] at h
  refine Eff.keeps_of_outcome_next State.fixedByPack (fun _ _ => rfl) ?_ h
  exact Eff.ends_bind (pack_fixed _ _ bw s) fun _ _ h => h

theorem exec_ePay_fixed {s t : State} (h : exec .ePay s = .next t) : t.fixedByPack = s.fixedByPack := by
  obtain ⟨bw, hbw⟩ := legalWidth_of_exec_next (by decide) h
  rw [exec, execEPay, hbw] at h
  dsimp only at h
  split at h
  · cases h
  · refine Eff.keeps_of_outcome_next State.fixedByPack (fun _ _ => rfl) ?_ h
    exact Eff.ends_bind (pack_fixed _ _ bw s) fun _ _ h => h

theorem exec_dPro_fixed {s t : State} (h : exec .dPro s = .next t) : t.fixedByRead = s.fixedByRead := by
  refine Eff.keeps_of_outcome_next State.fixedByRead (fun _ _ => rfl) ?_ h
  refine Eff.ends_bind (needRoom_fixed _ s) fun _ r hr => ?_
  refine Eff.ends_bind (hr ▸ unpack_fixed _ _ r) fun v q hq => ?_
  exact hq ▸ validatePrologue_fixed { q with pro := BitVec.ofNat 6 v }

theorem exec_dLen_fixed {s t : State} (h : exec .dLen s = .next t) : t.fixedByRead = s.fixedByRead := by
  obtain ⟨bw, hbw⟩ := legalWidth_of_exec_next (by decide) h
  rw [exec, execDLen, hbw] at h
  refine Eff.keeps_of_outcome_next State.fixedByRead (fun _ _ => rfl) ?_ h
  refine Eff.ends_bind (needRoom_fixed _ s) fun _ r hr => ?_
  refine Eff.ends_bind (hr ▸ unpack_fixed _ bw r) fun v q hq => ?_
  refine Eff.ends_bind (P := fun t => t.fixedByRead = s.fixedByRead) ?_ fun _ _ h => h
  exact hq ▸ needRoom_fixed _ { q with len := BitVec.ofNat 32 (v % 2 ^ Config.lengthBits) }

theorem exec_dPay_fixed {s t : State} (h : exec .dPay s = .next t) : t.fixedByStore = s.fixedByStore := by
  obtain ⟨bw, hbw⟩ := legalWidth_of_exec_next (by decide) h
  rw [exec, execDPay, hbw] at h
  refine Eff.keeps_of_outcome_next State.fixedByStore (fun _ _ => rfl) ?_ h
  refine Eff.ends_bind (unpack_ends (fun _ _ h => h) (fun _ _ _ _ h => h) _ bw rfl) fun v q hq => ?_
  split
  · trivial
  · rw [storeLoop_eq_payStored]
    exact hq

theorem exec_xRun_fixed {s t : State} (h : exec .xRun s = .next t) : t.fixedByStore = s.fixedByStore := by
  cases hkey : s.keyUsable with
  | true => rw [exec_xRun_of_usable hkey] at h; cases h; rfl
  | false => rw [exec_xRun_of_unusable hkey] at h; cases h; rfl

theorem exec_qRun_fixed {s t : State} (h : exec .qRun s = .next t) : t.fixedByRead = s.fixedByRead := by
  rw [exec, execQRun] at h
  split at h
  · exact Eff.keeps_of_outcome_next State.fixedByRead (fun _ _ => rfl) (queryCapacity_fixed s) h
  · exact Eff.keeps_of_outcome_next State.fixedByRead (fun _ _ => rfl) (queryLowones_fixed s) h
  · exact Eff.keeps_of_outcome_next State.fixedByRead (fun _ _ => rfl) (queryHighmask_fixed s) h
  · cases h

/-- What phase `i` leaves of `s` in `t`: its inputs always, `GRID` and `PAY` but where `i` is a writer of R60. -/
structure State.KeptBy (s : State) (i : Instr) (t : State) : Prop where
  fixed : t.fixed = s.fixed
  grid : i ∉ [Instr.ePro, .eLen, .ePay] → t.grid = s.grid
  pay : i ∉ [Instr.dPay, .xRun] → t.pay = s.pay

theorem keptBy_of_fixedByPack {s t : State} {i : Instr} (hi : i ∈ [Instr.ePro, .eLen, .ePay])
    (h : t.fixedByPack = s.fixedByPack) : s.KeptBy i t :=
  ⟨(congrArg State.fixed h :), fun hn => absurd hi hn, fun _ => (congrArg State.pay h :)⟩

theorem keptBy_of_fixedByRead {s t : State} {i : Instr} (h : t.fixedByRead = s.fixedByRead) : s.KeptBy i t :=
  ⟨(congrArg State.fixed h :), fun _ => (congrArg State.grid h :), fun _ => (congrArg State.pay h :)⟩

theorem keptBy_of_fixedByStore {s t : State} {i : Instr} (hi : i ∈ [Instr.dPay, .xRun])
    (h : t.fixedByStore = s.fixedByStore) : s.KeptBy i t :=
  ⟨(congrArg State.fixed h :), fun _ => (congrArg State.grid h :), fun hn => absurd hi hn⟩

theorem keptBy_of_exec {i : Instr} {s t : State} (hi : isCommand i = false) (h : exec i s = .next t) :
    s.KeptBy i t := by
  cases i with
  | encode | decode | capacity | xorapply | lowones | highmask => cases hi
  | idle => cases h; exact ⟨rfl, fun _ => rfl, fun _ => rfl⟩
  | eCheck => exact keptBy_of_fixedByRead (exec_eCheck_fixed h)
  | ePro => exact keptBy_of_fixedByPack (by decide) (exec_ePro_fixed h)
  | eLen => exact keptBy_of_fixedByPack (by decide) (exec_eLen_fixed h)
  | ePay => exact keptBy_of_fixedByPack (by decide) (exec_ePay_fixed h)
  | dPro => exact keptBy_of_fixedByRead (exec_dPro_fixed h)
  | dLen => exact keptBy_of_fixedByRead (exec_dLen_fixed h)
  | dPay => exact keptBy_of_fixedByStore (by decide) (exec_dPay_fixed h)
  | xRun => exact keptBy_of_fixedByStore (by decide) (exec_xRun_fixed h)
  | qRun => exact keptBy_of_fixedByRead (exec_qRun_fixed h)

theorem isCommand_of_decode_phase {p : BitVec 4} {i : Instr} (h : decode (.phase p) = .ok i) : isCommand i = false := by
  have henc := encode_of_decode_phase h
  cases i with
  | encode | decode | capacity | xorapply | lowones | highmask => cases henc
  | idle | eCheck | ePro | eLen | ePay | dPro | dLen | dPay | xRun | qRun => rfl

/-- What the sequencer answers a next state from: the phase whose code stands in `STATUS.PHASE` (R24). -/
theorem exec_of_runPhase_next {s t : State} (h : runPhase s = .next t) :
    ∃ i, decode (.phase s.phase) = .ok i ∧ exec i s = .next t := by
  rw [runPhase] at h
  cases hdec : decode (.phase s.phase) with
  | ok i => rw [hdec] at h; exact ⟨i, rfl, h⟩
  | error e => rw [hdec] at h; cases h

theorem runPhase_keptBy {s t : State} (h : runPhase s = .next t) :
    t.fixed = s.fixed ∧ (s.phase.toNat ∉ [2, 3, 4] → t.grid = s.grid) ∧ (s.phase.toNat ∉ [7, 8] → t.pay = s.pay) := by
  obtain ⟨i, hdec, hexec⟩ := exec_of_runPhase_next h
  have hkept := keptBy_of_exec (isCommand_of_decode_phase hdec) hexec
  have henc := encode_of_decode_phase hdec
  refine ⟨hkept.fixed, fun hp => hkept.grid fun hi => hp ?_, fun hp => hkept.pay fun hi => hp ?_⟩
  all_goals
    fin_cases hi <;>
      · rw [← InstrWord.phase.inj henc]
        decide

/-- Settles O50: the loops' pieces leave the fields alone one by one, and so does whatever is made of them. -/
theorem phasesKeepInputs : Obligations.PhasesKeepInputs := by
  intro s t h
  obtain ⟨hfixed, hgrid, hpay⟩ := runPhase_keptBy h
  exact ⟨(congrArg State.gridH hfixed :), (congrArg State.gridW hfixed :), (congrArg State.bwIn hfixed :),
    (congrArg State.keyCtl hfixed :), (congrArg State.keyLen hfixed :), (congrArg State.payLen hfixed :),
    (congrArg State.arg hfixed :), (congrArg State.cmd hfixed :), (congrArg State.key hfixed :),
    (congrArg State.host hfixed :), (congrArg State.readData hfixed :), (congrArg State.draws hfixed :), hgrid, hpay⟩

end Sys2Proof.Machine

/-! R22, R24, R28, R203: the invariant as propositions, by what runs and by the phase about to run. -/

namespace Sys2Proof.Machine

/-- What `D.PRO` establishes, as propositions. -/
theorem decodeReady_iff (s : State) :
    s.decodeReady = true ↔
      (1 ≤ s.bw.toNat ∧ s.bw.toNat ≤ 7) ∧ (s.keyok = true → s.keyUsable = true) ∧ s.obf = flagOf s.keyok := by
  simp only [State.decodeReady, Bool.and_eq_true, legalWidth_isSome, Bool.or_eq_true, Bool.not_eq_true', beq_iff_eq,
    imp_iff_not_or, Bool.not_eq_true, and_assoc]

/-- What the phases before it have established where the phase in `STATUS.PHASE` is about to run. -/
inductive State.ReadyAt (s : State) : Prop where
  | eCheck (phase : s.phase = Phase.eCheck) (cur : s.cur.toNat = 0)
  | ePro (phase : s.phase = Phase.ePro) (cur : s.cur.toNat = 0) (ready : s.encodeReady = true)
  | eLen (phase : s.phase = Phase.eLen) (cur : s.cur.toNat = Config.prologueCells) (ready : s.encodeReady = true)
    (obf : s.obf = flagOf s.keyok)
  | ePay (phase : s.phase = Phase.ePay) (cur : s.cur.toNat = s.headerEnd) (ready : s.encodeReady = true)
    (obf : s.obf = flagOf s.keyok)
  | dPro (phase : s.phase = Phase.dPro) (cur : s.cur.toNat = 0)
  | dLen (phase : s.phase = Phase.dLen) (cur : s.cur.toNat = Config.prologueCells) (ready : s.decodeReady = true)
  | dPay (phase : s.phase = Phase.dPay) (cur : s.cur.toNat = s.headerEnd) (ready : s.decodeReady = true)
    (room : s.headerEnd + payloadChunks s.len.toNat s.bw.toNat ≤ s.gridSize)
  | xRun (phase : s.phase = Phase.xRun) (cur : s.cur.toNat = 0)
  | qRun (phase : s.phase = Phase.qRun) (cur : s.cur.toNat = 0) (query : isQuery s.cmd = true)

theorem readyAt_of_phaseInv {s : State} (h : s.phaseInv = true) : s.ReadyAt := by
  unfold State.phaseInv at h
  split at h <;> rename_i hphase
  case h_10 => cases h
  all_goals simp only [Bool.and_eq_true, beq_iff_eq, decide_eq_true_eq, and_assoc] at h
  case h_1 => exact .eCheck (BitVec.eq_of_toNat_eq hphase) h
  case h_2 => exact .ePro (BitVec.eq_of_toNat_eq hphase) h.1 h.2
  case h_3 => exact .eLen (BitVec.eq_of_toNat_eq hphase) h.1 h.2.1 h.2.2
  case h_4 => exact .ePay (BitVec.eq_of_toNat_eq hphase) h.1 h.2.1 h.2.2
  case h_5 => exact .dPro (BitVec.eq_of_toNat_eq hphase) h
  case h_6 => exact .dLen (BitVec.eq_of_toNat_eq hphase) h.1 h.2
  case h_7 => exact .dPay (BitVec.eq_of_toNat_eq hphase) h.1 h.2.1 h.2.2
  case h_8 => exact .xRun (BitVec.eq_of_toNat_eq hphase) h
  case h_9 => exact .qRun (BitVec.eq_of_toNat_eq hphase) h.1 h.2

theorem phaseInv_of_readyAt {s : State} (h : s.ReadyAt) : s.phaseInv = true := by
  cases h with
  | eCheck phase cur => simp [State.phaseInv, phase, Phase.eCheck, cur]
  | ePro phase cur ready => simp [State.phaseInv, phase, Phase.ePro, cur, ready]
  | eLen phase cur ready obf => simp [State.phaseInv, phase, Phase.eLen, cur, ready, obf]
  | ePay phase cur ready obf => simp [State.phaseInv, phase, Phase.ePay, cur, ready, obf]
  | dPro phase cur => simp [State.phaseInv, phase, Phase.dPro, cur]
  | dLen phase cur ready => simp [State.phaseInv, phase, Phase.dLen, cur, ready]
  | dPay phase cur ready room => simp [State.phaseInv, phase, Phase.dPay, cur, ready, room]
  | xRun phase cur => simp [State.phaseInv, phase, Phase.xRun, cur]
  | qRun phase cur query => simp [State.phaseInv, phase, Phase.qRun, cur, query]

theorem phaseInv_iff (s : State) : s.phaseInv = true ↔ s.ReadyAt := ⟨readyAt_of_phaseInv, phaseInv_of_readyAt⟩

theorem runInv_iff_of_busy {s : State} (h : s.run = .busy) :
    s.runInv = true ↔ s.fault = none ∧ s.outputsClear = true ∧ s.ReadyAt := by
  rw [State.runInv, h]
  simp only [Bool.and_eq_true, beq_iff_eq, phaseInv_iff, and_assoc]

theorem runInv_iff_of_done {s : State} (h : s.run = .done) :
    s.runInv = true ↔ s.phase = Phase.idle ∧ s.fault = none ∧ s.bwOut.toNat ≤ Config.maxWidth ∧
      (s.obfOut = Config.obfOn ∨ s.obfOut = Config.obfOff) := by
  rw [State.runInv, h]
  simp only [Bool.and_eq_true, Bool.or_eq_true, beq_iff_eq, decide_eq_true_eq, and_assoc]

theorem runInv_iff_of_fault {s : State} (h : s.run = .fault) :
    s.runInv = true ↔ s.phase = Phase.idle ∧ s.fault ≠ none ∧ s.fault ≠ some .invalidImage ∧ s.outputsClear = true := by
  rw [State.runInv, h]
  simp only [Bool.and_eq_true, bne_iff_ne, beq_iff_eq, and_assoc]

/-- R24: `IDLE` is the phase whenever no command runs. -/
theorem phase_of_runInv {s : State} (h : s.runInv = true) (hrun : s.run ≠ .busy) : s.phase = Phase.idle := by
  unfold State.runInv at h
  split at h <;> simp_all

theorem inv_iff (s : State) : s.inv = true ↔ s.memoriesWf = true ∧ s.runInv = true := by
  rw [State.inv, Bool.and_eq_true]

/-- Settles O52: at reset every memory is empty and every register 0. -/
theorem resetMeetsInvariant : Obligations.ResetMeetsInvariant := rfl

/-- Settles O36: the phases check the width themselves, and what the invariant keeps for each has a legal one. -/
theorem unvalidatedWidthStops : Obligations.UnvalidatedWidthStops := by
  refine ⟨fun s hbw => exec_of_no_width (legalWidth_eq_none _ (by omega)), fun s hinv hrun hphase => ?validated⟩
  case validated =>
    obtain ⟨-, -, hready⟩ := (runInv_iff_of_busy hrun).mp ((inv_iff s).mp hinv).2
    cases hready with
    | ePro _ _ ready | eLen _ _ ready _ | ePay _ _ ready _ => exact ((encodeReady_iff s).mp ready).1
    | dLen _ _ ready | dPay _ _ ready _ => exact ((decodeReady_iff s).mp ready).1
    | eCheck phase _ | dPro phase _ | xRun phase _ | qRun phase _ _ =>
      rw [phase] at hphase
      exact absurd hphase (by decide)

end Sys2Proof.Machine

/-! R203: what each phase does where the phases before it have run, one lemma a phase. -/

namespace Sys2Proof.Machine

/-- R203: a phase and the one that follows it. -/
def phaseOrder : List (Nat × Nat) := [(1, 2), (2, 3), (3, 4), (5, 6), (6, 7)]

/-- The command that runs, told from the phase about to run and, in `Q.RUN`, from `CMD` (R203, log entry 6). -/
def State.command (s : State) : Option Instr :=
  match s.phase.toNat with
  | 1 | 2 | 3 | 4 => some .encode
  | 5 | 6 | 7 => some .decode
  | 8 => some .xorapply
  | 9 => (decodeCommand s.cmd).toOption
  | _ => none

theorem command_of_phaseOrder {s t : State} (h : (s.phase.toNat, t.phase.toNat) ∈ phaseOrder) :
    t.command = s.command := by
  simp only [phaseOrder, List.mem_cons, Prod.mk.injEq, List.not_mem_nil, or_false] at h
  unfold State.command
  rcases h with ⟨hs, ht⟩ | ⟨hs, ht⟩ | ⟨hs, ht⟩ | ⟨hs, ht⟩ | ⟨hs, ht⟩
  all_goals
    rw [hs, ht]
    rfl

theorem command_of_phase {s : State} {p : BitVec 4} {i : Instr} (hphase : s.phase = p)
    (h : { s with phase := p }.command = some i) : s.command = some i := by
  subst hphase
  exact h

theorem command_of_qRun {s : State} {i : Instr} (hphase : s.phase = Phase.qRun) (hcmd : decodeCommand s.cmd = .ok i) :
    s.command = some i := by
  rw [State.command, hphase, hcmd]
  rfl

/-- How a phase ends: its command goes on to the next phase, is done, or fails with a failure of its own. -/
inductive State.PhaseEnds (s t : State) : Prop where
  | goesOn (run : t.run = .busy) (order : (s.phase.toNat, t.phase.toNat) ∈ phaseOrder)
  | done (run : t.run = .done) (last : s.phase.toNat ∈ [4, 7, 8, 9])
  | failed (i : Instr) (f : Failure) (run : t.run = .fault) (fault : t.fault = some f)
    (canFail : s.phase.toNat ∈ [1, 5, 6, 8, 9]) (command : s.command = some i) (kind : f ∈ failureKinds i)
    (kept : t.fixedByRead = s.fixedByRead)

/-- What a phase does in a state of the invariant. -/
structure State.PhaseTo (s t : State) : Prop where
  ends : s.PhaseEnds t
  inv : t.runInv = true
  wf : s.memoriesWf = true → t.memoriesWf = true
  cur : s.cur.toNat ≤ t.cur.toNat

theorem failure_ne_invalidImage {i : Instr} {f : Failure} (h : f ∈ failureKinds i) : f ≠ .invalidImage := by
  rintro rfl
  cases i <;> exact absurd h (by decide)

/-- A phase that fails does so in a state with the memories and outputs it began with. -/
theorem phaseTo_failed {s q : State} {p : BitVec 4} {i : Instr} {f : Failure} (hphase : s.phase = p)
    (hcan : p.toNat ∈ [1, 5, 6, 8, 9]) (hcommand : s.command = some i) (hkind : f ∈ failureKinds i)
    (hout : q.outputsClear = true) (hkept : q.fixedByRead = s.fixedByRead) (hcur : s.cur.toNat ≤ q.cur.toNat) :
    s.PhaseTo (q.failed f) where
  ends := .failed i f rfl rfl (hphase ▸ hcan) hcommand hkind hkept
  inv := (runInv_iff_of_fault rfl).mpr
    ⟨rfl, nofun, fun h => failure_ne_invalidImage hkind (Option.some.inj h), hout⟩
  wf h := (congrArg State.memoriesWf hkept :).trans h
  cur := hcur

/-- A phase that goes on leaves `FAULT` and the outputs clear. -/
theorem phaseTo_goesOn {s t : State} {p q : BitVec 4} (hs : s.phase = p) (ht : t.phase = q)
    (horder : (p.toNat, q.toNat) ∈ phaseOrder) (hrun : t.run = .busy) (hfault : t.fault = none)
    (hout : t.outputsClear = true) (hready : t.ReadyAt) (hwf : s.memoriesWf = true → t.memoriesWf = true)
    (hcur : s.cur.toNat ≤ t.cur.toNat) : s.PhaseTo t where
  ends := .goesOn hrun (hs ▸ ht ▸ horder)
  inv := (runInv_iff_of_busy hrun).mpr ⟨hfault, hout, hready⟩
  wf := hwf
  cur := hcur

/-- A phase that ends its command with a width and a flag as R93 has them. -/
theorem phaseTo_done {s t : State} {p : BitVec 4} {flag : Bool} (hs : s.phase = p) (hlast : p.toNat ∈ [4, 7, 8, 9])
    (hrun : t.run = .done) (ht : t.phase = Phase.idle) (hfault : t.fault = none) (hbw : t.bwOut.toNat ≤ Config.maxWidth)
    (hobf : t.obfOut = flagOf flag) (hwf : s.memoriesWf = true → t.memoriesWf = true)
    (hcur : s.cur.toNat ≤ t.cur.toNat) : s.PhaseTo t where
  ends := .done hrun (hs ▸ hlast)
  inv := by
    refine (runInv_iff_of_done hrun).mpr ⟨ht, hfault, hbw, ?_⟩
    cases flag with
    | true => exact .inl hobf
    | false => exact .inr hobf
  wf := hwf
  cur := hcur

theorem packed_memoriesWf {s : State} (h : s.memoriesWf = true) (val n : Nat) (bw : Fin 9) :
    (s.packed val n bw).memoriesWf = true := by
  obtain ⟨hgrid, hpay, hkey⟩ := (memoriesWf_iff s).mp h
  exact (memoriesWf_iff _).mpr ⟨packGrid_wf bw n _ val hgrid, hpay, hkey⟩

theorem outputsClear_iff (s : State) :
    s.outputsClear = true ↔ s.result = 0#64 ∧ s.lenOut = 0#32 ∧ s.bwOut = 0#4 ∧ s.obfOut = 0#3 := by
  simp only [State.outputsClear, Bool.and_eq_true, beq_iff_eq, and_assoc]

section Phases

variable {s : State} (hfault : s.fault = none)
include hfault

theorem phaseTo_of_ePay (hphase : s.phase = Phase.ePay) (hcur : s.cur.toNat = s.headerEnd)
    (hready : s.encodeReady = true) (hobf : s.obf = flagOf s.keyok) : ∃ t, exec .ePay s = .next t ∧ s.PhaseTo t := by
  obtain ⟨⟨hbw, hbw'⟩, -, -, -, hkey, -⟩ := (encodeReady_iff s).mp hready
  have hroom := room_of_encodeReady hready
  rw [← hcur] at hroom
  exact ⟨_, exec_ePay_of_room (legalWidth_eq_some _ hbw hbw') hkey hroom, phaseTo_done hphase (by decide) rfl rfl hfault
    hbw' hobf (fun h => packed_memoriesWf h _ _ _) ((Nat.le_add_right _ _).trans (cursor_toNat s hroom).ge)⟩

theorem phaseTo_of_dPay (hphase : s.phase = Phase.dPay) (hcur : s.cur.toNat = s.headerEnd)
    (hready : s.decodeReady = true) (hsize : s.headerEnd + payloadChunks s.len.toNat s.bw.toNat ≤ s.gridSize) :
    ∃ t, exec .dPay s = .next t ∧ s.PhaseTo t := by
  obtain ⟨⟨hbw, hbw'⟩, hkey, hobf⟩ := (decodeReady_iff s).mp hready
  have hfilled : s.keyok = true → s.keyFilled = true := fun h => (Bool.and_eq_true_iff.mp (hkey h)).2
  rw [← hcur] at hsize
  refine ⟨_, exec_dPay_of_room (legalWidth_eq_some _ hbw hbw') hfilled hsize, phaseTo_done hphase (by decide) rfl rfl
    hfault hbw' hobf (fun h => ?wf) ((Nat.le_add_right _ _).trans (cursor_toNat s hsize).ge)⟩
  case wf =>
    obtain ⟨hgrid, hpay, hkeyWf⟩ := (memoriesWf_iff s).mp h
    exact (memoriesWf_iff _).mpr ⟨hgrid, payStored_wf _ _ hpay, hkeyWf⟩

variable (hout : s.outputsClear = true)
include hout

section GoesOn

variable (hrun : s.run = .busy)
include hrun

theorem phaseTo_of_eCheck (hphase : s.phase = Phase.eCheck) (hcur : s.cur.toNat = 0) :
    ∃ t, exec .eCheck s = .next t ∧ s.PhaseTo t := by
  refine ⟨_, encodeChecksInOrder s, ?_⟩
  have hfail {f : Failure} (hkind : f ∈ failureKinds .encode) : s.PhaseTo (s.failed f) :=
    phaseTo_failed hphase (by decide) (command_of_phase hphase rfl) hkind hout rfl le_rfl
  split_ifs with hwidth hkey hsize
  · exact hfail (by decide)
  · exact hfail (by decide)
  · exact hfail (by decide)
  · have hbw : 1 ≤ s.bwIn.toNat ∧ s.bwIn.toNat ≤ 7 := by omega
    have hfilled : (s.keyCtl == 1#1) = true → s.keyFilled = true := fun hp =>
      bne_iff_ne.mpr fun hl => hkey ⟨beq_iff_eq.mp hp, hl⟩
    exact phaseTo_goesOn (q := Phase.ePro) hphase rfl (by decide) hrun hfault hout
      (.ePro rfl hcur ((encodeReady_iff _).mpr ⟨hbw, rfl, rfl, rfl, hfilled, Int.not_lt.mp hsize⟩)) (fun h => h) le_rfl

theorem phaseTo_of_ePro (hphase : s.phase = Phase.ePro) (hcur : s.cur.toNat = 0) (hready : s.encodeReady = true) :
    ∃ t, exec .ePro s = .next t ∧ s.PhaseTo t := by
  have hend : s.cur.toNat + Config.prologueCells = Config.prologueCells := by rw [hcur, Nat.zero_add]
  have hroom : s.cur.toNat + Config.prologueCells ≤ s.gridSize := by
    rw [hend]
    exact Nat.le_of_add_right_le (Nat.le_of_add_right_le (room_of_encodeReady hready))
  have hcur' := cursor_toNat s hroom
  exact ⟨_, exec_ePro_of_room hroom, phaseTo_goesOn (q := Phase.eLen) hphase rfl (by decide) hrun hfault hout
    (.eLen rfl (hcur'.trans hend) hready rfl) (fun h => packed_memoriesWf (s := s.withPrologue) h _ _ _)
    ((Nat.le_add_right _ _).trans hcur'.ge)⟩

theorem phaseTo_of_eLen (hphase : s.phase = Phase.eLen) (hcur : s.cur.toNat = Config.prologueCells)
    (hready : s.encodeReady = true) (hobf : s.obf = flagOf s.keyok) : ∃ t, exec .eLen s = .next t ∧ s.PhaseTo t := by
  obtain ⟨⟨hbw, hbw'⟩, -⟩ := (encodeReady_iff s).mp hready
  have hend : s.cur.toNat + lengthChunks s.bw.toNat = s.headerEnd := by rw [hcur, State.headerEnd]
  have hroom : s.cur.toNat + lengthChunks s.bw.toNat ≤ s.gridSize := by
    rw [hend]
    exact Nat.le_of_add_right_le (room_of_encodeReady hready)
  have hcur' := cursor_toNat s hroom
  exact ⟨_, exec_eLen_of_room (legalWidth_eq_some _ hbw hbw') hroom, phaseTo_goesOn (q := Phase.ePay) hphase rfl
    (by decide) hrun hfault hout (.ePay rfl (hcur'.trans hend) hready hobf) (fun h => packed_memoriesWf h _ _ _)
    ((Nat.le_add_right _ _).trans hcur'.ge)⟩

theorem phaseTo_of_dPro (hphase : s.phase = Phase.dPro) (hcur : s.cur.toNat = 0) :
    ∃ t, exec .dPro s = .next t ∧ s.PhaseTo t := by
  obtain ⟨hshort, hroom⟩ := prologueValidated s (BitVec.eq_of_toNat_eq hcur)
  have hle (x : BitVec 34) : s.cur.toNat ≤ x.toNat := hcur.trans_le (Nat.zero_le _)
  have hfail {q : State} {f : Failure} (hkind : f ∈ failureKinds .decode) (hq : q.outputsClear = true)
      (hkept : q.fixedByRead = s.fixedByRead) : s.PhaseTo (q.failed f) :=
    phaseTo_failed hphase (by decide) (command_of_phase hphase rfl) hkind hq hkept (hle _)
  by_cases hsize : s.gridSize < 6
  case pos => exact ⟨_, hshort hsize, hfail (by decide) hout rfl⟩
  case neg =>
    refine ⟨_, hroom (Nat.le_of_not_lt hsize), ?_⟩
    have hlegal : gridValue s.grid 0 6 1 % 8 ≠ 0 →
        1 ≤ (BitVec.ofNat 4 (gridValue s.grid 0 6 1 % 8)).toNat ∧
          (BitVec.ofNat 4 (gridValue s.grid 0 6 1 % 8)).toNat ≤ 7 := by
      rw [BitVec.toNat_ofNat]
      omega
    split_ifs with hobf hwidth hon hpresent hempty
    · exact hfail (by decide) hout rfl
    · exact hfail (by decide) hout rfl
    · exact hfail (by decide) hout rfl
    · exact hfail (by decide) hout rfl
    · have hctl : s.keyCtl = 1#1 := (BitVec.eq_zero_or_eq_one s.keyCtl).resolve_left hpresent
      refine phaseTo_goesOn (q := Phase.dLen) hphase rfl (by decide) hrun hfault hout (.dLen rfl rfl ?_) (fun h => h)
        (hle _)
      exact (decodeReady_iff _).mpr
        ⟨hlegal hwidth, fun _ => (keyUsable_iff s).mpr ⟨hctl, hempty⟩, congrArg (BitVec.ofNat 3) hon⟩
    · have hoff : gridValue s.grid 0 6 1 / 8 = 0 := by omega
      refine phaseTo_goesOn (q := Phase.dLen) hphase rfl (by decide) hrun hfault hout (.dLen rfl rfl ?_) (fun h => h)
        (hle _)
      exact (decodeReady_iff _).mpr ⟨hlegal hwidth, nofun, congrArg (BitVec.ofNat 3) hoff⟩

theorem phaseTo_of_dLen (hphase : s.phase = Phase.dLen) (hcur : s.cur.toNat = Config.prologueCells)
    (hready : s.decodeReady = true) : ∃ t, exec .dLen s = .next t ∧ s.PhaseTo t := by
  obtain ⟨⟨hbw, hbw'⟩, -⟩ := (decodeReady_iff s).mp hready
  obtain ⟨hshort, hroom⟩ := lengthRead s hbw hbw' (BitVec.eq_of_toNat_eq hcur)
  have hcommand : s.command = some .decode := command_of_phase hphase rfl
  by_cases hsize : s.gridSize < 6 + lengthChunks s.bw.toNat
  case pos => exact ⟨_, hshort hsize, phaseTo_failed hphase (by decide) hcommand (by decide) hout rfl le_rfl⟩
  case neg =>
    refine ⟨_, hroom (Nat.le_of_not_lt hsize), ?_⟩
    have hend := cursor_toNat s (Nat.le_of_not_lt hsize)
    have hle : s.cur.toNat ≤ (BitVec.ofNat 34 (6 + lengthChunks s.bw.toNat)).toNat := by
      rw [hcur, hend]
      exact Nat.le_add_right _ _
    split_ifs with hpay
    · exact phaseTo_failed hphase (by decide) hcommand (by decide) hout rfl hle
    · refine phaseTo_goesOn (q := Phase.dPay) hphase rfl (by decide) hrun hfault hout (.dPay rfl hend hready ?_)
        (fun h => h) hle
      simp only [BitVec.toNat_ofNat, Nat.mod_mod]
      exact Nat.le_of_not_lt hpay

end GoesOn

theorem phaseTo_of_xRun (hphase : s.phase = Phase.xRun) : ∃ t, exec .xRun s = .next t ∧ s.PhaseTo t := by
  obtain ⟨-, -, hbw, hobf⟩ := (outputsClear_iff s).mp hout
  have hcommand : s.command = some .xorapply := command_of_phase hphase rfl
  cases hkey : s.keyUsable with
  | true =>
    refine ⟨_, exec_xRun_of_usable hkey, phaseTo_done (flag := false) hphase (by decide) rfl rfl hfault ?bw hobf
      (fun h => ?wf) le_rfl⟩
    case bw =>
      rw [finishCommand_bwOut, hbw]
      decide
    case wf =>
      obtain ⟨hgrid, hpay, hkeyWf⟩ := (memoriesWf_iff s).mp h
      exact (memoriesWf_iff _).mpr ⟨hgrid, payXored_wf hpay, hkeyWf⟩
  | false =>
    exact ⟨_, exec_xRun_of_unusable hkey, phaseTo_failed hphase (by decide) hcommand (by decide) hout rfl le_rfl⟩

/-- A query that is answered ends with the other outputs clear. -/
theorem phaseTo_answered (hphase : s.phase = Phase.qRun) (x : BitVec 64) :
    s.PhaseTo { s with result := x, phase := 0#4, run := .done } := by
  obtain ⟨-, -, hbw, hobf⟩ := (outputsClear_iff s).mp hout
  exact phaseTo_done (flag := false) hphase (by decide) rfl rfl hfault (by rw [hbw]; decide) hobf (fun h => h) le_rfl

theorem phaseTo_of_qRun (hphase : s.phase = Phase.qRun) (hquery : isQuery s.cmd = true) :
    ∃ t, exec .qRun s = .next t ∧ s.PhaseTo t := by
  have hmask {i : Instr} (hcommand : s.command = some i) (hkind : .maskRange ∈ failureKinds i) (x : BitVec 64)
      (p : Prop) [Decidable p] :
      s.PhaseTo (if p then { s with result := x, phase := 0#4, run := .done } else s.failed .maskRange) := by
    split
    · exact phaseTo_answered hfault hout hphase x
    · exact phaseTo_failed hphase (by decide) hcommand hkind hout rfl le_rfl
  simp only [isQuery, Bool.or_eq_true, beq_iff_eq, or_assoc] at hquery
  rcases hquery with hcmd | hcmd | hcmd
  · have hcommand : s.command = some .capacity := command_of_qRun hphase (by rw [hcmd]; rfl)
    obtain ⟨hlegal, hillegal⟩ := capacityResult.2 s hcmd
    by_cases hbw : s.bwIn.toNat < 1 ∨ 7 < s.bwIn.toNat
    · exact ⟨_, hillegal hbw, phaseTo_failed hphase (by decide) hcommand (by decide) hout rfl le_rfl⟩
    · obtain ⟨r, hexec, -⟩ := hlegal (by omega) (by omega)
      exact ⟨_, hexec, phaseTo_answered hfault hout hphase r⟩
  · have hcommand : s.command = some .lowones := command_of_qRun hphase (by rw [hcmd]; rfl)
    exact ⟨_, lowonesResult.2 s hcmd, hmask hcommand (by decide) _ _⟩
  · have hcommand : s.command = some .highmask := command_of_qRun hphase (by rw [hcmd]; rfl)
    exact ⟨_, highmaskResult.2 s hcmd, hmask hcommand (by decide) _ _⟩

end Phases

end Sys2Proof.Machine

/-! R22, R208: what a step can do from a state of the invariant. -/

namespace Sys2Proof.Machine

theorem runPhase_of_phase {s : State} {p : BitVec 4} {i : Instr} (hphase : s.phase = p)
    (hdec : decode (.phase p) = .ok i) : runPhase s = exec i s := by
  rw [runPhase, hphase, hdec]

theorem runPhase_of_busy {s : State} (hrun : s.run = .busy) (hinv : s.runInv = true) :
    ∃ t, runPhase s = .next t ∧ s.PhaseTo t := by
  obtain ⟨hfault, hout, hready⟩ := (runInv_iff_of_busy hrun).mp hinv
  cases hready with
  | eCheck phase cur =>
    rw [runPhase_of_phase phase rfl]
    exact phaseTo_of_eCheck hfault hout hrun phase cur
  | ePro phase cur ready =>
    rw [runPhase_of_phase phase rfl]
    exact phaseTo_of_ePro hfault hout hrun phase cur ready
  | eLen phase cur ready obf =>
    rw [runPhase_of_phase phase rfl]
    exact phaseTo_of_eLen hfault hout hrun phase cur ready obf
  | ePay phase cur ready obf =>
    rw [runPhase_of_phase phase rfl]
    exact phaseTo_of_ePay hfault phase cur ready obf
  | dPro phase cur =>
    rw [runPhase_of_phase phase rfl]
    exact phaseTo_of_dPro hfault hout hrun phase cur
  | dLen phase cur ready =>
    rw [runPhase_of_phase phase rfl]
    exact phaseTo_of_dLen hfault hout hrun phase cur ready
  | dPay phase cur ready room =>
    rw [runPhase_of_phase phase rfl]
    exact phaseTo_of_dPay hfault phase cur ready room
  | xRun phase cur =>
    rw [runPhase_of_phase phase rfl]
    exact phaseTo_of_xRun hfault hout phase
  | qRun phase cur query =>
    rw [runPhase_of_phase phase rfl]
    exact phaseTo_of_qRun hfault hout phase query

/-- R24: at rest the sequencer does nothing. -/
theorem runPhase_of_not_busy {s : State} (hrun : s.run ≠ .busy) (hinv : s.runInv = true) : runPhase s = .next s := by
  rw [runPhase_of_phase (phase_of_runInv hinv hrun) rfl]
  rfl

/-- R200, R203: a command starts with its first phase ready to run. -/
theorem exec_command_started {i : Instr} (hi : isCommand i = true) {s : State} (hrun : s.run ≠ .busy) :
    ∃ c first, exec i s = .next (s.started c first) ∧ (s.started c first).ReadyAt ∧
      (s.started c first).command = some i := by
  cases i with
  | encode => exact ⟨_, _, issueCommand_of_not_busy _ _ hrun, .eCheck rfl rfl, rfl⟩
  | decode => exact ⟨_, _, issueCommand_of_not_busy _ _ hrun, .dPro rfl rfl, rfl⟩
  | xorapply => exact ⟨_, _, issueCommand_of_not_busy _ _ hrun, .xRun rfl rfl, rfl⟩
  | capacity =>
    exact ⟨_, _, issueCommand_of_not_busy _ _ hrun, .qRun rfl rfl rfl, command_of_qRun rfl (decode_encode .capacity)⟩
  | lowones =>
    exact ⟨_, _, issueCommand_of_not_busy _ _ hrun, .qRun rfl rfl rfl, command_of_qRun rfl (decode_encode .lowones)⟩
  | highmask =>
    exact ⟨_, _, issueCommand_of_not_busy _ _ hrun, .qRun rfl rfl rfl, command_of_qRun rfl (decode_encode .highmask)⟩
  | idle | eCheck | ePro | eLen | ePay | dPro | dLen | dPay | xRun | qRun => cases hi

theorem runInv_started {s : State} {c : BitVec 8} {first : BitVec 4} (h : (s.started c first).ReadyAt) :
    (s.started c first).runInv = true :=
  (runInv_iff_of_busy rfl).mpr ⟨rfl, rfl, h⟩

/-- Log entries 8 and 16: the two reasons of the host port to refuse an access. -/
def State.RefusesHost (s : State) (r : Refusal) : Prop :=
  (r = .hostMemoryWhileBusy ∧ s.run = .busy) ∨ ∃ n, 14 < n ∧ r = .noSuchRegister n

/-- `x` is what the machine may answer in `s`: a next state of the invariant, or a refusal of the host port. -/
inductive State.Answers (s : State) (x : Host.Outcome State Fault Refusal) : Prop where
  | next (t : State) (answer : x = .next t) (inv : t.inv = true)
  | refused (r : Refusal) (answer : x = .refused r) (host : s.RefusesHost r)

theorem answers_runPhase {s : State} (hinv : s.inv = true) : s.Answers (runPhase s) := by
  obtain ⟨hwf, hrunInv⟩ := (inv_iff s).mp hinv
  by_cases hrun : s.run = .busy
  · obtain ⟨t, ht, hto⟩ := runPhase_of_busy hrun hrunInv
    exact .next t ht ((inv_iff t).mpr ⟨hto.wf hwf, hto.inv⟩)
  · exact .next s (runPhase_of_not_busy hrun hrunInv) hinv

theorem answers_writeCommand {s : State} (hinv : s.inv = true) (hrun : s.run ≠ .busy) (c : BitVec 8) :
    s.Answers (writeCommand c s) := by
  obtain ⟨hwf, -⟩ := (inv_iff s).mp hinv
  cases hdec : decode (.cmd c) with
  | ok i =>
    obtain ⟨c', first, hexec, hready, -⟩ := exec_command_started (isCommand_of_decode_cmd hdec) hrun
    exact .next _ ((writeCommand_of_ok hdec s).trans hexec) ((inv_iff _).mpr ⟨hwf, runInv_started hready⟩)
  | error e =>
    exact .next _ ((writeCommand_of_error hdec s).trans (illegalCommand_of_not_busy c hrun))
      ((inv_iff _).mpr ⟨hwf, (runInv_iff_of_fault rfl).mpr ⟨rfl, nofun, nofun, rfl⟩⟩)

/-- At rest the invariant does not look at the input registers. -/
theorem inv_writeInput {n v : Nat} {s t : State} (hrun : s.run ≠ .busy) (ht : writeInput n v s = .next t) :
    t.inv = s.inv := by
  rw [writeInput_frame ht]
  cases h : s.run with
  | busy => exact absurd h hrun
  | idle | done | fault => simp only [State.inv, State.runInv, h]; rfl

theorem answers_hostWrite {s : State} (hinv : s.inv = true) (n v : Nat) : s.Answers (hostWrite n v s) := by
  by_cases hn : 14 < n
  · exact .refused _ (if_pos hn) (.inr ⟨n, hn, rfl⟩)
  by_cases hrun : s.run = .busy
  · exact .next s (hostWrite_of_busy (Nat.le_of_not_lt hn) v hrun) hinv
  by_cases hcmd : n = 0
  · subst hcmd
    rw [hostWrite_cmd_of_not_busy v hrun]
    exact answers_writeCommand hinv hrun _
  · obtain ⟨t, ht⟩ := writeInput_next hcmd (Nat.le_of_not_lt hn) v s
    exact .next t ((hostWrite_of_not_busy hcmd (Nat.le_of_not_lt hn) v hrun).trans ht)
      ((inv_writeInput hrun ht).trans hinv)

/-- A host read changes the model's own fields alone, or names no register. -/
theorem hostRead_cases (n : Nat) (s : State) :
    (∃ x d, hostRead n s = .next { s with readData := x, draws := d }) ∨
      (14 < n ∧ hostRead n s = .refused (.noSuchRegister n)) := by
  by_cases hn : 14 < n
  · exact .inr ⟨hn, hostRead_of_no_register hn s⟩
  · obtain ⟨x, hx⟩ := registerValue_some (Nat.le_of_not_lt hn) s
    refine .inl ?_
    rw [hostRead, hx]
    split_ifs <;> exact ⟨_, _, rfl⟩

theorem answers_hostRead {s : State} (hinv : s.inv = true) (n : Nat) : s.Answers (hostRead n s) := by
  obtain ⟨x, d, h⟩ | ⟨hn, h⟩ := hostRead_cases n s
  · exact .next _ h hinv
  · exact .refused _ h (.inr ⟨n, hn, rfl⟩)

theorem runInv_setMemory (s : State) (sp : Space) (m : Memory) : (s.setMemory sp m).runInv = s.runInv := by
  cases sp <;> rfl

theorem answers_hostStore {s : State} (hinv : s.inv = true) (sp : Space) (a : Nat) (b : Byte) :
    s.Answers (hostStore sp a b s) := by
  obtain ⟨hwf, hrunInv⟩ := (inv_iff s).mp hinv
  by_cases hrun : s.run = .busy
  · exact .refused _ (if_pos hrun) (.inl ⟨rfl, hrun⟩)
  · exact .next _ (if_neg hrun) ((inv_iff _).mpr
      ⟨setMemory_memoriesWf hwf sp (Memory.wf_write (memory_wf hwf sp) a b), (runInv_setMemory s sp _).trans hrunInv⟩)

theorem answers_hostLoad {s : State} (hinv : s.inv = true) (sp : Space) (a : Nat) : s.Answers (hostLoad sp a s) := by
  by_cases hrun : s.run = .busy
  · exact .refused _ (if_pos hrun) (.inl ⟨rfl, hrun⟩)
  · exact .next _ (if_neg hrun) hinv

/-- The reset input leaves canonical memories: each is an old one or a blend into an old one. -/
theorem resetInput_memoriesWf {s : State} (h : s.memoriesWf = true) : (resetInput s).memoriesWf = true := by
  obtain ⟨hgrid, hpay, hkey⟩ := (memoriesWf_iff s).mp h
  refine (memoriesWf_iff _).mpr ⟨?grid, ?pay, hkey⟩
  case grid =>
    show (gridAtReset s).wf = true
    unfold gridAtReset
    split
    · exact Memory.wf_blend _ _ hgrid
    · exact hgrid
  case pay =>
    show (payAtReset s).wf = true
    unfold payAtReset
    split
    · exact Memory.wf_blend _ _ hpay
    · exact hpay

theorem answers_hostAct {s : State} (hinv : s.inv = true) (a : HostAction) : s.Answers (hostAct a s) := by
  cases a with
  | write n v => exact answers_hostWrite hinv n v
  | read n => exact answers_hostRead hinv n
  | store sp k b => exact answers_hostStore hinv sp k b
  | load sp k => exact answers_hostLoad hinv sp k
  | wait => exact .next s rfl hinv
  | advance => exact answers_runPhase hinv
  | reset => exact .next _ rfl ((inv_iff _).mpr ⟨resetInput_memoriesWf ((inv_iff s).mp hinv).1, rfl⟩)

theorem step_of_no_action {s : State} (h : s.host = []) : step s = runPhase s := by
  rw [step, stepMachine, h]

theorem step_of_wait {s : State} {rest : List HostAction} (h : s.host = .wait :: rest) :
    step s = if s.run = .busy then runPhase s else .next { s with host := rest } := by
  rw [step, stepMachine, h]

theorem step_of_action {s : State} {a : HostAction} {rest : List HostAction} (h : s.host = a :: rest) (ha : a ≠ .wait) :
    step s = hostAct a { s with host := rest } := by
  rw [step, stepMachine, h]
  cases a with
  | wait => exact absurd rfl ha
  | write _ _ | read _ | store _ _ _ | load _ _ | advance | reset => rfl

/-- The invariant does not look at the host's list, so an action taken off it is done in a state of the invariant. -/
theorem answers_step {s : State} (hinv : s.inv = true) : s.Answers (step s) := by
  cases h : s.host with
  | nil =>
    rw [step_of_no_action h]
    exact answers_runPhase hinv
  | cons a rest =>
    by_cases ha : a = .wait
    · subst ha
      rw [step_of_wait h]
      split
      · exact answers_runPhase hinv
      · exact .next _ rfl hinv
    · rw [step_of_action h ha]
      cases answers_hostAct (s := { s with host := rest }) hinv a with
      | next t answer inv => exact .next t answer inv
      | refused r answer host => exact .refused r answer host

/-- Settles O53: whatever a step answers as a next state is a state of the invariant. -/
theorem stepKeepsInvariant : Obligations.StepKeepsInvariant := by
  intro s t hinv hstep
  cases answers_step hinv with
  | next u answer inv =>
    rw [hstep] at answer
    cases answer
    exact inv
  | refused r answer host =>
    rw [hstep] at answer
    cases answer

/-- Settles O54: a step from the invariant answers a next state or one of the host port's two refusals. -/
theorem stepNeverStopsCore : Obligations.StepNeverStopsCore := by
  intro s hinv
  cases answers_step hinv with
  | next t answer _ => exact ⟨fun r h => (by rw [answer] at h; cases h), fun r h => (by rw [answer] at h; cases h)⟩
  | refused r answer host =>
    refine ⟨fun r h => (by rw [answer] at h; cases h), fun r' h => ?_⟩
    rw [answer] at h
    cases h
    exact host

/-- Settles O49: a phase ends in one of three ways, and the invariant says what `FAULT` and `PHASE` then are. -/
theorem phasesFollowTheirOrder : Obligations.PhasesFollowTheirOrder := by
  intro s t hinv hrun hphase
  obtain ⟨u, hu, hto⟩ := runPhase_of_busy hrun ((inv_iff s).mp hinv).2
  rw [hphase] at hu
  cases hu
  cases hto.ends with
  | goesOn run order => exact .inl ⟨run, order⟩
  | done run last =>
    obtain ⟨hidle, hfault, -⟩ := (runInv_iff_of_done run).mp hto.inv
    exact .inr (.inl ⟨run, hidle, hfault, last⟩)
  | failed i f run fault canFail =>
    obtain ⟨hidle, hfault, -⟩ := (runInv_iff_of_fault run).mp hto.inv
    exact .inr (.inr ⟨run, hidle, hfault, canFail⟩)

end Sys2Proof.Machine

/-! R22, R244: at rest only a `CMD` write or the reset input changes what the last command left. -/

namespace Sys2Proof.Machine

/-- What a command leaves for the host to read: `STATUS`, `FAULT`, the outputs and `CUR`. -/
def State.outcome (s : State) : State :=
  { State.reset with
    run := s.run, phase := s.phase, fault := s.fault, result := s.result, lenOut := s.lenOut, bwOut := s.bwOut,
    obfOut := s.obfOut, cur := s.cur }

theorem outcome_hostWrite {n v : Nat} {s t : State} (hn : n ≠ 0) (hrun : s.run ≠ .busy)
    (h : hostWrite n v s = .next t) : t.outcome = s.outcome := by
  by_cases hn' : 14 < n
  · rw [hostWrite, if_pos hn'] at h
    cases h
  · rw [hostWrite_of_not_busy hn (Nat.le_of_not_lt hn') v hrun] at h
    rw [writeInput_frame h]
    rfl

theorem outcome_hostRead {n : Nat} {s t : State} (h : hostRead n s = .next t) : t.outcome = s.outcome := by
  obtain ⟨x, d, hread⟩ | ⟨-, hread⟩ := hostRead_cases n s
  · rw [hread] at h
    cases h
    rfl
  · rw [hread] at h
    cases h

theorem outcome_hostStore {sp : Space} {a : Nat} {b : Byte} {s t : State} (h : hostStore sp a b s = .next t) :
    t.outcome = s.outcome := by
  unfold hostStore at h
  split at h
  · cases h
  · cases h
    cases sp <;> rfl

theorem outcome_hostLoad {sp : Space} {a : Nat} {s t : State} (h : hostLoad sp a s = .next t) :
    t.outcome = s.outcome := by
  unfold hostLoad at h
  split at h <;> cases h
  rfl

theorem outcome_hostAct {s t : State} {a : HostAction} (hinv : s.runInv = true) (hrun : s.run ≠ .busy)
    (hcmd : ∀ c, a ≠ .write 0 c) (hreset : a ≠ .reset) (h : hostAct a s = .next t) : t.outcome = s.outcome := by
  cases a with
  | write n v => exact outcome_hostWrite (fun hn => hcmd v (hn ▸ rfl)) hrun h
  | read n => exact outcome_hostRead h
  | store sp k b => exact outcome_hostStore h
  | load sp k => exact outcome_hostLoad h
  | wait => cases h; rfl
  | advance =>
    have hidle : hostAct .advance s = .next s := runPhase_of_not_busy hrun hinv
    rw [hidle] at h
    cases h
    rfl
  | reset => exact absurd rfl hreset

theorem outcome_step {s t : State} (hinv : s.inv = true) (hrun : s.run ≠ .busy) (h : step s = .next t)
    (hcmd : ∀ c rest, s.host ≠ .write 0 c :: rest) (hreset : ∀ rest, s.host ≠ .reset :: rest) :
    t.outcome = s.outcome := by
  obtain ⟨-, hrunInv⟩ := (inv_iff s).mp hinv
  cases hhost : s.host with
  | nil =>
    rw [step_of_no_action hhost, runPhase_of_not_busy hrun hrunInv] at h
    cases h
    rfl
  | cons a rest =>
    by_cases ha : a = .wait
    · subst ha
      rw [step_of_wait hhost, if_neg hrun] at h
      cases h
      rfl
    · rw [step_of_action hhost ha] at h
      exact outcome_hostAct (s := { s with host := rest }) hrunInv hrun (fun c hc => hcmd c rest (hc ▸ hhost))
        (fun hr => hreset rest (hr ▸ hhost)) h

/-- Settles O51: the host's other actions reach input registers, memories or the model's own fields; no phase runs. -/
theorem outcomePersists : Obligations.OutcomePersists := by
  intro s t hinv hrun hstep hcmd hreset
  have h := outcome_step hinv hrun hstep hcmd hreset
  exact ⟨(congrArg State.run h :), (congrArg State.fault h :), (congrArg State.phase h :), (congrArg State.result h :),
    (congrArg State.lenOut h :), (congrArg State.bwOut h :), (congrArg State.obfOut h :), (congrArg State.cur h :)⟩

end Sys2Proof.Machine

/-! R203, R208: the phases of a command, run to its end. -/

namespace Sys2Proof.Machine

/-- How many phases a command still has from phase `p` on (R203). -/
def phasesLeft (p : BitVec 4) : Nat :=
  match p.toNat with
  | 1 => 4
  | 2 | 5 => 3
  | 3 | 6 => 2
  | 4 | 7 | 8 | 9 => 1
  | _ => 0

theorem phasesLeft_le_maxPhases : ∀ p, phasesLeft p ≤ maxPhases := by decide

theorem phasesLeft_of_phaseOrder :
    ∀ p q : BitVec 4, (p.toNat, q.toNat) ∈ phaseOrder → phasesLeft p = phasesLeft q + 1 := by
  decide

theorem phasesLeft_pos {s : State} (h : s.ReadyAt) : 0 < phasesLeft s.phase := by
  cases h with
  | eCheck phase | ePro phase | eLen phase | ePay phase | dPro phase | dLen phase | dPay phase | xRun phase
  | qRun phase =>
    rw [phase]
    decide

theorem fixedByRead_eq {s t : State} (hfixed : t.fixed = s.fixed) (hgrid : t.grid = s.grid) (hpay : t.pay = s.pay) :
    t.fixedByRead = s.fixedByRead := by
  rw [State.fixedByRead, State.fixedByRead, hfixed, hgrid, hpay]

/-- How a running command ends. -/
structure State.RunsTo (s t : State) : Prop where
  inv : t.runInv = true
  wf : s.memoriesWf = true → t.memoriesWf = true
  cur : s.cur.toNat ≤ t.cur.toNat
  ends : t.run = .done ∨
    (t.run = .fault ∧ ∃ i f, s.command = some i ∧ f ∈ failureKinds i ∧ t.fault = some f)
  /-- R243: a failure comes before the first write to a memory. -/
  kept : t.run = .fault → s.phase.toNat ∉ [2, 3, 4] ∧ t.fixedByRead = s.fixedByRead

theorem runsTo_of_goesOn {s u t : State} (hphase : runPhase s = .next u) (hto : s.PhaseTo u)
    (horder : (s.phase.toNat, u.phase.toNat) ∈ phaseOrder) (hruns : u.RunsTo t) : s.RunsTo t where
  inv := hruns.inv
  wf h := hruns.wf (hto.wf h)
  cur := hto.cur.trans hruns.cur
  ends := command_of_phaseOrder horder ▸ hruns.ends
  kept hrun := by
    obtain ⟨hfail, hkept⟩ := hruns.kept hrun
    have hdecode : s.phase.toNat ∈ [5, 6] := by
      simp only [phaseOrder, List.mem_cons, Prod.mk.injEq, List.not_mem_nil, or_false] at horder hfail ⊢
      omega
    obtain ⟨hfixed, hgrid, hpay⟩ := runPhase_keptBy hphase
    simp only [List.mem_cons, List.not_mem_nil, or_false] at hdecode hgrid hpay ⊢
    exact ⟨by omega, hkept.trans (fixedByRead_eq hfixed (hgrid (by omega)) (hpay (by omega)))⟩

/-- R208: a running command ends, within the phases it has left. -/
theorem runPhases_runsTo {fuel : Nat} {s : State} (hrun : s.run = .busy) (hinv : s.runInv = true)
    (hfuel : phasesLeft s.phase ≤ fuel) : ∃ t, runPhases fuel s = .next t ∧ s.RunsTo t := by
  induction fuel generalizing s with
  | zero =>
    have hpos := phasesLeft_pos ((runInv_iff_of_busy hrun).mp hinv).2.2
    omega
  | succ fuel ih =>
    obtain ⟨u, hphase, hto⟩ := runPhase_of_busy hrun hinv
    have hnext : runPhases (fuel + 1) s = runPhases fuel u := by
      rw [runPhases, if_pos hrun, hphase]
    rw [hnext]
    cases hto.ends with
    | goesOn run order =>
      have hleft := phasesLeft_of_phaseOrder _ _ order
      obtain ⟨t, ht, hruns⟩ := ih run hto.inv (by omega)
      exact ⟨t, ht, runsTo_of_goesOn hphase hto order hruns⟩
    | done run last =>
      exact ⟨u, runPhases_of_not_busy (by rw [run]; decide) fuel, hto.inv, hto.wf, hto.cur, .inl run,
        fun h => absurd (run.symm.trans h) (by decide)⟩
    | failed i f run fault canFail command kind kept =>
      refine ⟨u, runPhases_of_not_busy (by rw [run]; decide) fuel, hto.inv, hto.wf, hto.cur,
        .inr ⟨run, i, f, command, kind, fault⟩, fun _ => ⟨?_, kept⟩⟩
      simp only [List.mem_cons, List.not_mem_nil, or_false] at canFail ⊢
      omega

theorem runCommand_runsTo {i : Instr} (hi : isCommand i = true) {s : State} (hrun : s.run ≠ .busy) :
    ∃ c first t, runCommand i s = .next t ∧ (s.started c first).RunsTo t ∧ (s.started c first).command = some i := by
  obtain ⟨c, first, hexec, hready, hcommand⟩ := exec_command_started hi hrun
  obtain ⟨t, ht, hruns⟩ := runPhases_runsTo rfl (runInv_started hready) (phasesLeft_le_maxPhases _)
  exact ⟨c, first, t, (runCommand_of_next hexec).trans ht, hruns, hcommand⟩

/-- Settles O44: a command has four phases at most, and each ends as the invariant says. -/
theorem everyCommandEnds : Obligations.EveryCommandEnds := by
  intro i s hi hrun
  obtain ⟨c, first, t, ht, hruns, hcommand⟩ := runCommand_runsTo hi hrun
  refine ⟨t, ht, ?_⟩
  obtain hdone | ⟨hfault, j, f, hj, hkind, hf⟩ := hruns.ends
  · obtain ⟨hphase, hnone, -⟩ := (runInv_iff_of_done hdone).mp hruns.inv
    exact ⟨hphase, .inl ⟨hdone, hnone⟩⟩
  · obtain ⟨hphase, -⟩ := (runInv_iff_of_fault hfault).mp hruns.inv
    cases hcommand.symm.trans hj
    exact ⟨hphase, .inr ⟨hfault, f, hkind, hf⟩⟩

/-- Settles O43: a command fails before its first write, and R28's outputs are clear in every failure. -/
theorem failedCommandChangesNoMemory : Obligations.FailedCommandChangesNoMemory := by
  intro i s t hi hrun hcommand hfault
  obtain ⟨c, first, u, hu, hruns, -⟩ := runCommand_runsTo hi hrun
  rw [hcommand] at hu
  cases hu
  obtain ⟨-, h⟩ := hruns.kept hfault
  obtain ⟨-, -, -, hout⟩ := (runInv_iff_of_fault hfault).mp hruns.inv
  exact ⟨(congrArg State.grid h :), (congrArg State.pay h :), (congrArg State.key h :), hout,
    (congrArg State.gridH h :), (congrArg State.gridW h :), (congrArg State.bwIn h :),
    (congrArg State.keyCtl h :), (congrArg State.keyLen h :),
    (congrArg State.payLen h :), (congrArg State.arg h :)⟩

theorem runsTo_completed {s : State} (hrun : s.run = .busy) (hinv : s.runInv = true) : s.RunsTo (completed s) := by
  obtain ⟨t, ht, hruns⟩ := runPhases_runsTo hrun hinv (phasesLeft_le_maxPhases _)
  rwa [completed, ht]

/-- Settles O11: both memories are blends of what the command would have left and what was there; the cut lies
between `CUR` and its final value. -/
theorem resetLeavesPrefix : Obligations.ResetLeavesPrefix := by
  intro s hinv hrun
  obtain ⟨hwf, hrunInv⟩ := (inv_iff s).mp hinv
  have hruns := runsTo_completed hrun hrunInv
  obtain ⟨hgrid, hpay, -⟩ := (memoriesWf_iff s).mp hwf
  obtain ⟨hgrid', hpay', -⟩ := (memoriesWf_iff _).mp (hruns.wf hwf)
  refine ⟨⟨cutAt (Config.freeDraw s.draws) s, Nat.le_add_right _ _, ?bound, fun k => ?cells⟩, fun k => ?bytes⟩
  case bound =>
    have hlt : Config.freeDraw s.draws % ((completed s).cur.toNat - s.cur.toNat + 1) < _ :=
      Nat.mod_lt _ (Nat.succ_pos _)
    have hcur := hruns.cur
    unfold cutAt
    omega
  case cells =>
    have hreset : (resetInput s).grid = Memory.blend _ (completed s).grid s.grid := if_pos hrun
    rw [hreset, Memory.read_blend _ hgrid' hgrid]
    simp only [decide_eq_true_eq]
  case bytes =>
    have hreset : (resetInput s).pay = Memory.blend _ (completed s).pay s.pay := if_pos hrun
    rw [hreset, Memory.read_blend _ hpay' hpay]
    split
    · exact .inl rfl
    · exact .inr rfl

end Sys2Proof.Machine

/-! R24, R105, R200: the instruction a step runs. -/

namespace Sys2Proof.Machine

/-- Settles O47: doing nothing (R24) is answering the state itself. -/
theorem idleDoesNothing : Obligations.IdleDoesNothing := fun _ => rfl

theorem runPhase_of_ok {s : State} {i : Instr} (h : decode (.phase s.phase) = .ok i) : runPhase s = exec i s :=
  runPhase_of_phase rfl h

theorem runPhase_of_error {s : State} {e : DecodeRefusal} (h : decode (.phase s.phase) = .error e) :
    runPhase s = .refused (.reservedPhase s.phase) := by
  rw [runPhase, h]

/-- Settles O48: the step's three ways to the sequencer, and the host's turn, one lemma each. -/
theorem stepRunsDecodedInstruction : Obligations.StepRunsDecodedInstruction := by
  refine ⟨fun s i hhost hdec => ?sequencer, fun s e rest hhost hdec => ?reserved, fun s i rest hhost hrun hdec => ?wait,
    fun s rest hhost hrun => ?waited, fun s i rest hhost hdec => ?advance, fun s i c rest hhost hdec => ?command,
    fun s c rest e hhost hrun hdec => ?illegal, fun s a rest hhost ha => step_of_action hhost ha, fun s => ?actions⟩
  case sequencer => rw [step_of_no_action hhost, runPhase_of_ok hdec]
  case reserved =>
    obtain hhost | ⟨hhost, hrun⟩ | hhost := hhost
    · rw [step_of_no_action hhost, runPhase_of_error hdec]
    · rw [step_of_wait hhost, if_pos hrun, runPhase_of_error hdec]
    · rw [step_of_action hhost nofun]
      exact runPhase_of_error (s := { s with host := rest }) hdec
  case wait => rw [step_of_wait hhost, if_pos hrun, runPhase_of_ok hdec]
  case waited => rw [step_of_wait hhost, if_neg hrun]
  case advance =>
    rw [step_of_action hhost nofun]
    exact runPhase_of_ok (s := { s with host := rest }) hdec
  case command =>
    rw [step_of_action hhost nofun]
    exact hostWrite_cmd_of_ok (isCommand_of_decode_cmd hdec) hdec _
  case illegal =>
    rw [step_of_action hhost nofun]
    exact (hostWrite_cmd_of_not_busy (s := { s with host := rest }) c hrun).trans (writeCommand_of_error hdec _)
  case actions =>
    exact ⟨fun _ _ => rfl, fun _ => rfl, fun _ _ _ => rfl, fun _ _ => rfl, rfl, rfl,
      fun v => hostWrite_cmd_of_not_busy v⟩

end Sys2Proof.Machine

/-! R161: the two answers of `GetChunk`. -/

namespace Sys2Proof.Machine

/-- Settles O24: a chunk is a remainder by `2^bw`, and the cell it is taken from is not written. -/
theorem getChunkReadsLowBits : Obligations.GetChunkReadsLowBits := fun bw s _ _ =>
  ⟨fun hlt => ⟨_, getChunk_of_lt bw s hlt, rfl, Nat.mod_lt _ (Nat.two_pow_pos _)⟩, fun hge => getChunk_of_ge bw s hge⟩

end Sys2Proof.Machine

/-! R175: the sixty-four prologues. -/

namespace Sys2Proof.Machine

/-- The validation of prologue `p`. -/
def State.validated (s : State) (p : Nat) : Eff Unit := validatePrologue { s with pro := BitVec.ofNat 6 p }

section Validated

variable {s : State} (hkey : s.keyUsable = true) {p : Nat} (hp : p < 64)
include hkey hp

/-- How the validation ends when the key is usable, by the prologue's two fields (R173). -/
theorem validated_eq :
    s.validated p =
      if p / 8 ≠ 0 ∧ p / 8 ≠ 7 then .raise .corruptHeader { s with pro := BitVec.ofNat 6 p }
      else if p % 8 = 0 then .raise .invalidBitWidth { s with pro := BitVec.ofNat 6 p }
      else .ok () { s with
        pro := BitVec.ofNat 6 p, obf := BitVec.ofNat 3 (p / 8), bw := BitVec.ofNat 4 (p % 8),
        keyok := decide (p / 8 = 7), phase := 6#4 } := by
  obtain ⟨hctl, hlen⟩ := (keyUsable_iff s).mp hkey
  have hpresent : s.keyCtl ≠ 0#1 := by rw [hctl]; decide
  have hpro : (BitVec.ofNat 6 p).toNat = p := by rw [BitVec.toNat_ofNat, Nat.mod_eq_of_lt hp]
  rw [State.validated, validatePrologue_eq, withFields_eq]
  simp only [hpro, if_neg hpresent, if_neg hlen, and_comm (a := p / 8 ≠ 7)]
  congr 2
  by_cases hon : p / 8 = 7
  · rw [if_pos hon, decide_eq_true hon]
    rfl
  · rw [if_neg hon, decide_eq_false hon]
    rfl

theorem validated_goesOn : (s.validated p).goesOn = decide ((p / 8 = 0 ∨ p / 8 = 7) ∧ p % 8 ≠ 0) := by
  rw [validated_eq hkey hp]
  split_ifs with hflag hwidth
  · exact (decide_eq_false (by omega)).symm
  · exact (decide_eq_false (by omega)).symm
  · exact (decide_eq_true (by omega)).symm

theorem validated_raises_corruptHeader :
    (s.validated p).raises .corruptHeader = decide (p / 8 ≠ 0 ∧ p / 8 ≠ 7) := by
  rw [validated_eq hkey hp]
  split_ifs with hflag hwidth
  · exact (decide_eq_true hflag).symm
  · exact (decide_eq_false hflag).symm
  · exact (decide_eq_false hflag).symm

theorem validated_raises_invalidBitWidth :
    (s.validated p).raises .invalidBitWidth = decide ((p / 8 = 0 ∨ p / 8 = 7) ∧ p % 8 = 0) := by
  rw [validated_eq hkey hp]
  split_ifs with hflag hwidth
  · exact (decide_eq_false (by omega)).symm
  · exact (decide_eq_true (by omega)).symm
  · exact (decide_eq_false (by omega)).symm

end Validated

/-- Prologues are counted by a property of their numbers alone. -/
theorem length_filter_range_congr {n : Nat} {f g : Nat → Bool} (h : ∀ p < n, f p = g p) :
    ((List.range n).filter f).length = ((List.range n).filter g).length := by
  rw [List.filter_congr fun p hp => h p (List.mem_range.mp hp)]

/-- Settles O55: how a prologue's validation ends is decided by its two fields, and the numbers are counted. -/
theorem fourteenProloguesPass : Obligations.FourteenProloguesPass := by
  intro s hkey
  refine ⟨?passed, ?corrupt, ?widthless, fun p hp =>
    ⟨?corruptFields, ?widthlessFields, fun hflag hwidth => ?passedFields⟩⟩
  case passed => exact (length_filter_range_congr fun p hp => validated_goesOn hkey hp).trans (by decide)
  case corrupt => exact (length_filter_range_congr fun p hp => validated_raises_corruptHeader hkey hp).trans (by decide)
  case widthless =>
    exact (length_filter_range_congr fun p hp => validated_raises_invalidBitWidth hkey hp).trans (by decide)
  case corruptFields => exact (validated_raises_corruptHeader hkey hp).symm ▸ decide_eq_true_iff
  case widthlessFields => exact (validated_raises_invalidBitWidth hkey hp).symm ▸ decide_eq_true_iff
  case passedFields => exact (validated_eq hkey hp).trans ((if_neg (by omega)).trans (if_neg hwidth))

end Sys2Proof.Machine

/-! R201, R205: the state an accepted `ENCODE` ends in, phase by phase. -/

namespace Sys2Proof.Machine

/-- `s` where an accepted `ENCODE` has written the prologue, for the grid it leaves (R172). -/
def State.prologueSent (s : State) (g : Memory) : State :=
  { s.started 0x01#8 Phase.eLen with
    bw := s.bwIn, len := s.payLen, keyok := s.keyPresent, obf := if s.keyPresent then 0b111#3 else 0b000#3,
    pro := BitVec.ofNat 6 s.prologueIn, nc := 6#36, ci := 6#36, cur := 6#34, grid := g }

/-- `s` where an accepted `ENCODE` has written the whole header (R176). -/
def State.headerSent (s : State) (g : Memory) : State :=
  { s.prologueSent g with
    phase := Phase.ePay, nc := BitVec.ofNat 36 (lengthChunks s.bwIn.toNat),
    ci := BitVec.ofNat 36 (lengthChunks s.bwIn.toNat), cur := BitVec.ofNat 34 (6 + lengthChunks s.bwIn.toNat) }

/-- `s` where an accepted `ENCODE` has ended (R205). -/
def State.encoded (s : State) (g : Memory) : State :=
  { s.headerSent g with
    phase := 0#4, run := .done, bwOut := s.bwIn, obfOut := if s.keyPresent then 0b111#3 else 0b000#3,
    nc := BitVec.ofNat 36 (payloadChunks s.payLen.toNat s.bwIn.toNat),
    ci := BitVec.ofNat 36 (payloadChunks s.payLen.toNat s.bwIn.toNat),
    cur := BitVec.ofNat 34 (6 + lengthChunks s.bwIn.toNat + payloadChunks s.payLen.toNat s.bwIn.toNat) }

section Encode

variable {s : State} (henc : s.encodable)
include henc

theorem exec_eCheck_of_encodable :
    exec .eCheck (s.started 0x01#8 Phase.eCheck) = .next (s.started 0x01#8 Phase.eCheck).checked := by
  obtain ⟨hbw, hbw', hkey, hsize⟩ := henc
  have hexec := exec_eCheck_of_legal (s := s.started 0x01#8 Phase.eCheck) hbw hbw' fun hp => bne_iff_ne.mpr (hkey hp)
  exact hexec.trans (if_neg (Int.not_lt.mpr hsize))

theorem room_of_encodable :
    6 + lengthChunks s.bwIn.toNat + payloadChunks s.payLen.toNat s.bwIn.toNat ≤ s.gridSize := by
  obtain ⟨hbw, hbw', -, hsize⟩ := henc
  exact room_of_le_available hbw (by omega) hsize

theorem exec_ePro_of_encodable (hwf : s.grid.wf = true) :
    ∃ g, exec .ePro (s.started 0x01#8 Phase.eCheck).checked = .next (s.prologueSent g) ∧ g.wf = true ∧
      ∀ k, (g.read k).toNat =
        if k < 6 then replaceLow (s.grid.read k) 1 (chunk s.prologueIn 1 k) else (s.grid.read k).toNat := by
  have hroom := room_of_encodable henc
  obtain ⟨hbw, hbw', -, -⟩ := henc
  obtain ⟨t, hexec, ht, hwf', hcells⟩ :=
    prologueWritten (s.started 0x01#8 Phase.eCheck).checked hwf hbw hbw' rfl (by exact (by omega : 6 ≤ s.gridSize))
  have hpro : t.pro.toNat = s.prologueIn := by
    rw [ht]
    refine (BitVec.toNat_ofNat _ _).trans (Nat.mod_eq_of_lt ?_)
    show (if s.keyPresent then 7 else 0) * 8 + s.bwIn.toNat < 2 ^ 6
    split <;> omega
  rw [hpro] at hcells
  refine ⟨t.grid, hexec.trans ?_, hwf', hcells⟩
  rw [ht]
  rfl

theorem exec_eLen_of_encodable {g : Memory} (hwf : g.wf = true) :
    ∃ g', exec .eLen (s.prologueSent g) = .next (s.headerSent g') ∧ g'.wf = true ∧
      ∀ k, (g'.read k).toNat =
        if 6 ≤ k ∧ k < 6 + lengthChunks s.bwIn.toNat then
          replaceLow (g.read k) s.bwIn.toNat (chunk s.payLen.toNat s.bwIn.toNat (k - 6))
        else (g.read k).toNat := by
  have hroom := room_of_encodable henc
  obtain ⟨hbw, hbw', -, -⟩ := henc
  obtain ⟨t, hexec, ht, hwf', hcells⟩ :=
    lengthWritten (s.prologueSent g) hwf hbw hbw' rfl (Nat.le_of_add_right_le hroom)
  refine ⟨t.grid, hexec.trans ?_, hwf', hcells⟩
  rw [ht]
  rfl

theorem exec_ePay_of_encodable {g : Memory} (hwf : g.wf = true) :
    ∃ g', exec .ePay (s.headerSent g) = .next (s.encoded g') ∧ g'.wf = true ∧
      ∀ k, (g'.read k).toNat =
        if 6 + lengthChunks s.bwIn.toNat ≤ k ∧
            k < 6 + lengthChunks s.bwIn.toNat + payloadChunks s.payLen.toNat s.bwIn.toNat then
          replaceLow (g.read k) s.bwIn.toNat
            (chunk (s.payloadValue s.keyPresent s.payLen.toNat) s.bwIn.toNat (k - (6 + lengthChunks s.bwIn.toNat)))
        else (g.read k).toNat := by
  have hroom := room_of_encodable henc
  obtain ⟨hbw, hbw', hkey, -⟩ := henc
  have hcur : (s.headerSent g).cur.toNat = 6 + lengthChunks s.bwIn.toNat :=
    cursor_toNat s (Nat.le_of_add_right_le hroom)
  obtain ⟨t, hexec, ht, hwf', hcells⟩ := payloadWritten (s.headerSent g) hwf hbw hbw' hkey (by rw [hcur]; exact hroom)
  rw [hcur] at ht hcells
  refine ⟨t.grid, hexec.trans ?_, hwf', hcells⟩
  rw [ht]
  rfl

end Encode

/-- Settles O40: the three writing phases of an accepted `ENCODE` write three ranges of cells, one behind the other. -/
theorem encodeClosedForm : Obligations.EncodeClosedForm := by
  intro s hrun henc hwf
  obtain ⟨g₁, hpro, hwf₁, hcells₁⟩ := exec_ePro_of_encodable henc hwf
  obtain ⟨g₂, hlen, hwf₂, hcells₂⟩ := exec_eLen_of_encodable henc hwf₁
  obtain ⟨g₃, hpay, hwf₃, hcells₃⟩ := exec_ePay_of_encodable henc hwf₂
  refine ⟨s.started 0x01#8 Phase.eCheck, s.encoded g₃, exec_encode_of_not_busy hrun, ?run, rfl, hwf₃,
    room_of_encodable henc, fun k => ?cells⟩
  case run =>
    rw [maxPhases, runPhases_of_busy rfl rfl (exec_eCheck_of_encodable henc), runPhases_of_busy rfl rfl hpro,
      runPhases_of_busy rfl rfl hlen, runPhases_of_busy rfl rfl hpay]
    rfl
  case cells =>
    have h₁ := hcells₁ k
    have h₂ := hcells₂ k
    refine (hcells₃ k).trans ?_
    simp only [replaceLow] at h₁ h₂ ⊢
    rw [h₂, h₁, ← Nat.sub_sub]
    split_ifs <;> omega

end Sys2Proof.Machine

/-! R202, R206, R241: how a `DECODE` ends, phase by phase. -/

namespace Sys2Proof.Machine

theorem exec_decode_of_not_busy {s : State} (h : s.run ≠ .busy) :
    exec .decode s = .next (s.started 0x02#8 Phase.dPro) := if_neg h

theorem widthFound_le (s : State) : s.widthFound ≤ 7 := by
  unfold State.widthFound
  omega

theorem sizeFound_lt (s : State) : s.sizeFound < 2 ^ 32 := Nat.mod_lt _ (Nat.two_pow_pos _)

/-- `s` where a `DECODE` has read the prologue cells (R173). -/
def State.prologueRaw (s : State) : State :=
  { s.started 0x02#8 Phase.dPro with
    pro := BitVec.ofNat 6 s.prologueFound, v := s.prologueFound, nc := 6#36, ci := 6#36, cur := 6#34 }

/-- `s` where a `DECODE` has taken the flag and the width of a legal prologue (R173). -/
def State.prologueTaken (s : State) : State :=
  { s.prologueRaw with obf := BitVec.ofNat 3 s.obfFound, bw := BitVec.ofNat 4 s.widthFound }

/-- `s` where a `DECODE` goes on to the length field. -/
def State.prologuePassed (s : State) : State :=
  { s.prologueTaken with keyok := decide (s.obfFound = 7), phase := Phase.dLen }

/-- `s` where a `DECODE` has read the length cells (R177). -/
def State.lengthTaken (s : State) : State :=
  { s.prologuePassed with
    v := gridValue s.grid 6 (lengthChunks s.widthFound) s.widthFound, nc := BitVec.ofNat 36 (lengthChunks s.widthFound),
    ci := BitVec.ofNat 36 (lengthChunks s.widthFound), cur := BitVec.ofNat 34 (6 + lengthChunks s.widthFound),
    len := BitVec.ofNat 32 s.sizeFound }

/-- `s` where a `DECODE` goes on to the payload. -/
def State.lengthPassed (s : State) : State := { s.lengthTaken with phase := Phase.dPay }

/-- `PAY` of `s` with the decoded bytes stored (R206). -/
def State.payDecoded (s : State) : Memory :=
  fillPay (fun i _ => s.payloadOut (decide (s.obfFound = 7)) (s.payloadFound % 2 ^ (8 * s.sizeFound)) s.sizeFound i)
    s.sizeFound 0 s.pay

/-- `s` where a `DECODE` that meets no failure has ended (R206). -/
def State.decoded (s : State) : State :=
  { s.lengthTaken with
    run := .done, phase := Phase.idle, bwOut := BitVec.ofNat 4 s.widthFound, lenOut := BitVec.ofNat 32 s.sizeFound,
    obfOut := BitVec.ofNat 3 s.obfFound, v := s.payloadFound,
    nc := BitVec.ofNat 36 (payloadChunks s.sizeFound s.widthFound),
    ci := BitVec.ofNat 36 (payloadChunks s.sizeFound s.widthFound),
    cur := BitVec.ofNat 34 (6 + lengthChunks s.widthFound + payloadChunks s.sizeFound s.widthFound),
    pay := s.payDecoded }

theorem keyCtl_eq_zero_iff (s : State) : s.keyCtl = 0#1 ↔ s.keyPresent = false := by
  rw [← not_keyPresent_iff, Bool.not_eq_true']

theorem exec_dPro_of_no_room {s : State} (h : s.gridSize < 6) :
    exec .dPro (s.started 0x02#8 Phase.dPro) = .next ((s.started 0x02#8 Phase.dPro).failed .cursorExhausted) :=
  (prologueValidated (s.started 0x02#8 Phase.dPro) rfl).1 h

/-- R173 with the order of R174, by the fields that R206 names. -/
theorem exec_dPro_of_prologue {s : State} (h : 6 ≤ s.gridSize) :
    exec .dPro (s.started 0x02#8 Phase.dPro) = .next
      (if s.obfFound ≠ 0 ∧ s.obfFound ≠ 7 then s.prologueRaw.failed .corruptHeader
       else if s.widthFound = 0 then s.prologueRaw.failed .invalidBitWidth
       else if s.obfFound = 7 ∧ s.keyPresent = false then s.prologueTaken.failed .missingKey
       else if s.obfFound = 7 ∧ s.keyLen = 0#32 then s.prologueTaken.failed .invalidKey
       else s.prologuePassed) := by
  have hexec : exec .dPro (s.started 0x02#8 Phase.dPro) = .next
      (if s.obfFound ≠ 7 ∧ s.obfFound ≠ 0 then s.prologueRaw.failed .corruptHeader
       else if s.widthFound = 0 then s.prologueRaw.failed .invalidBitWidth
       else if s.obfFound = 7 then
         if s.keyCtl = 0#1 then s.prologueTaken.failed .missingKey
         else if s.keyLen = 0#32 then s.prologueTaken.failed .invalidKey
         else { s.prologueTaken with keyok := true, phase := Phase.dLen }
       else { s.prologueTaken with keyok := false, phase := Phase.dLen }) :=
    (prologueValidated (s.started 0x02#8 Phase.dPro) rfl).2 h
  rw [hexec, State.prologuePassed]
  by_cases hon : s.obfFound = 7
  · simp only [hon, keyCtl_eq_zero_iff, ne_eq, not_true_eq_false, false_and, and_false, true_and, if_true, if_false,
      decide_true]
  · simp only [hon, ne_eq, not_false_eq_true, true_and, and_true, false_and, if_false, decide_false]

/-- R177 for a width that the prologue gave, by the sizes that R206 names. -/
theorem exec_dLen_of_prologue {s : State} (hbw : 1 ≤ s.widthFound) :
    exec .dLen s.prologuePassed = .next
      (if s.gridSize < 6 + lengthChunks s.widthFound then s.prologuePassed.failed .cursorExhausted
       else if s.gridSize < 6 + lengthChunks s.widthFound + payloadChunks s.sizeFound s.widthFound then
         s.lengthTaken.failed .cursorExhausted
       else s.lengthPassed) := by
  have hle := widthFound_le s
  have hwidth : s.prologuePassed.bw.toNat = s.widthFound := by
    refine (BitVec.toNat_ofNat _ _).trans (Nat.mod_eq_of_lt ?_)
    omega
  have h := lengthRead s.prologuePassed (by rw [hwidth]; exact hbw) (by rw [hwidth]; exact hle) rfl
  rw [hwidth] at h
  by_cases hroom : s.gridSize < 6 + lengthChunks s.widthFound
  · rw [if_pos hroom]
    exact h.1 hroom
  · rw [if_neg hroom]
    exact h.2 (Nat.le_of_not_lt hroom)

/-- R189 for the sizes that R206 names. -/
theorem exec_dPay_of_decodable {s : State} (h : s.decodable) : exec .dPay s.lengthPassed = .next s.decoded := by
  obtain ⟨-, -, hbw, hkey, hroom⟩ := h
  have hle := widthFound_le s
  have hwidth : s.lengthPassed.bw.toNat = s.widthFound := by
    refine (BitVec.toNat_ofNat _ _).trans (Nat.mod_eq_of_lt ?_)
    omega
  have hsize : s.lengthPassed.len.toNat = s.sizeFound :=
    (BitVec.toNat_ofNat _ _).trans (Nat.mod_eq_of_lt (sizeFound_lt s))
  have hcur : s.lengthPassed.cur.toNat = 6 + lengthChunks s.widthFound := cursor_toNat s (Nat.le_of_add_right_le hroom)
  have hlegal := legalWidth_eq_some s.lengthPassed.bw (by rw [hwidth]; exact hbw) (by rw [hwidth]; exact hle)
  have hfilled : s.lengthPassed.keyok = true → s.lengthPassed.keyFilled = true := fun hk =>
    bne_iff_ne.mpr (hkey (of_decide_eq_true hk)).2
  have hend :
      s.lengthPassed.cur.toNat + payloadChunks s.lengthPassed.len.toNat s.lengthPassed.bw.toNat ≤ s.gridSize := by
    rw [hcur, hsize, hwidth]
    exact hroom
  have hexec := exec_dPay_of_room hlegal hfilled hend
  simp only [State.unpacked, hcur, hsize, hwidth] at hexec
  exact hexec

/-- R206: a `DECODE` that meets no failure. -/
theorem runCommand_decode_of_decodable {s : State} (hrun : s.run ≠ .busy) (h : s.decodable) :
    runCommand .decode s = .next s.decoded := by
  have hpro : exec .dPro (s.started 0x02#8 Phase.dPro) = .next s.prologuePassed := by
    obtain ⟨hroom, hflag, hbw, hkey, -⟩ := h
    rw [exec_dPro_of_prologue hroom, if_neg (by omega), if_neg (by omega), if_neg, if_neg]
    · exact fun hc => (hkey hc.1).2 hc.2
    · exact fun hc => absurd (hkey hc.1).1 (by rw [hc.2]; decide)
  have hlen : exec .dLen s.prologuePassed = .next s.lengthPassed := by
    obtain ⟨-, -, hbw, -, hroom⟩ := h
    rw [exec_dLen_of_prologue hbw, if_neg (by omega), if_neg (by omega)]
  rw [runCommand_of_next (exec_decode_of_not_busy hrun), maxPhases, runPhases_of_busy rfl rfl hpro,
    runPhases_of_busy rfl rfl hlen, runPhases_of_busy rfl rfl (exec_dPay_of_decodable h)]
  rfl

theorem payDecoded_wf {s : State} (h : s.pay.wf = true) : s.payDecoded.wf = true := fillPay_wf _ _ 0 h

theorem payDecoded_read {s : State} (h : s.pay.wf = true) (i : Nat) :
    s.payDecoded.read i =
      if i < s.sizeFound then
        s.payloadOut (decide (s.obfFound = 7)) (s.payloadFound % 2 ^ (8 * s.sizeFound)) s.sizeFound i
      else s.pay.read i := by
  rw [State.payDecoded, fillPay_read _ _ 0 h]
  simp only [Nat.zero_le, true_and, Nat.zero_add]

/-- Settles O41: the three phases of a `DECODE` that meets no failure, and the store loop's bytes one by one. -/
theorem decodeClosedForm : Obligations.DecodeClosedForm := by
  intro s hrun h hwf
  refine ⟨_, s.decoded, exec_decode_of_not_busy hrun, ?run, rfl, payDecoded_wf hwf, payDecoded_read hwf⟩
  case run => rw [← runCommand_of_next (exec_decode_of_not_busy hrun), runCommand_decode_of_decodable hrun h]

/-- A `DECODE` of `s` fails with `f` at cell `k` and has written nothing (R241, R243). -/
def State.DecodeFailsAt (s : State) (cause : Option Failure × Nat) : Prop :=
  ∃ t, runCommand .decode s = .next t ∧ t.run = .fault ∧ t.phase = 0#4 ∧ t.outputsClear = true ∧
    t.grid = s.grid ∧ t.pay = s.pay ∧ t.key = s.key ∧ (t.fault, t.cur.toNat) = cause

theorem decodeFailsAt_of_failed {s q : State} {f : Failure} (h : runCommand .decode s = .next (q.failed f))
    (hout : q.outputsClear = true) (hkept : q.fixedByRead = (s.started 0x02#8 Phase.dPro).fixedByRead) :
    s.DecodeFailsAt (some f, q.cur.toNat) :=
  ⟨q.failed f, h, rfl, rfl, hout, (congrArg State.grid hkept :), (congrArg State.pay hkept :),
    (congrArg State.key hkept :), rfl⟩

theorem runCommand_decode_of_dPro {s q : State} {f : Failure} (hrun : s.run ≠ .busy)
    (hpro : exec .dPro (s.started 0x02#8 Phase.dPro) = .next (q.failed f)) :
    runCommand .decode s = .next (q.failed f) := by
  rw [runCommand_of_next (exec_decode_of_not_busy hrun), maxPhases, runPhases_of_busy rfl rfl hpro]
  rfl

theorem runCommand_decode_of_dLen {s q : State} {f : Failure} (hrun : s.run ≠ .busy)
    (hpro : exec .dPro (s.started 0x02#8 Phase.dPro) = .next s.prologuePassed)
    (hlen : exec .dLen s.prologuePassed = .next (q.failed f)) :
    runCommand .decode s = .next (q.failed f) := by
  rw [runCommand_of_next (exec_decode_of_not_busy hrun), maxPhases, runPhases_of_busy rfl rfl hpro,
    runPhases_of_busy rfl rfl hlen]
  rfl

/-- Settles O42: the two validating phases check in the order of R241, and the last check left is the payload's room. -/
theorem decodeFailsWithFirstCause : Obligations.DecodeFailsWithFirstCause := by
  intro s hrun hnot
  show s.DecodeFailsAt _
  by_cases hsize : s.gridSize < 6
  case pos =>
    rw [if_pos hsize]
    exact decodeFailsAt_of_failed (runCommand_decode_of_dPro hrun (exec_dPro_of_no_room hsize)) rfl rfl
  case neg =>
    rw [if_neg hsize]
    have hpro := exec_dPro_of_prologue (Nat.le_of_not_lt hsize)
    split_ifs at hpro ⊢ with hflag hwidth hmissing hempty hlen
    · exact decodeFailsAt_of_failed (runCommand_decode_of_dPro hrun hpro) rfl rfl
    · exact decodeFailsAt_of_failed (runCommand_decode_of_dPro hrun hpro) rfl rfl
    · exact decodeFailsAt_of_failed (runCommand_decode_of_dPro hrun hpro) rfl rfl
    · exact decodeFailsAt_of_failed (runCommand_decode_of_dPro hrun hpro) rfl rfl
    · have hexec := (exec_dLen_of_prologue (by omega)).trans (congrArg _ (if_pos hlen))
      exact decodeFailsAt_of_failed (runCommand_decode_of_dLen hrun hpro hexec) rfl rfl
    · have hkey : s.obfFound = 7 → s.keyPresent = true ∧ s.keyLen ≠ 0#32 := fun hon =>
        ⟨Bool.eq_true_of_not_eq_false fun hp => hmissing ⟨hon, hp⟩, fun hl => hempty ⟨hon, hl⟩⟩
      have hpay : s.gridSize < 6 + lengthChunks s.widthFound + payloadChunks s.sizeFound s.widthFound :=
        Nat.lt_of_not_le fun hroom => hnot ⟨by omega, by omega, by omega, hkey, hroom⟩
      have hcur : s.lengthTaken.cur.toNat = 6 + lengthChunks s.widthFound := cursor_toNat s (Nat.le_of_not_lt hlen)
      have hexec := (exec_dLen_of_prologue (by omega)).trans (congrArg _ ((if_neg hlen).trans (if_pos hpay)))
      rw [← hcur]
      exact decodeFailsAt_of_failed (runCommand_decode_of_dLen hrun hpro hexec) rfl rfl

end Sys2Proof.Machine

/-! R102: the bits of the grid that a `DECODE` reads. -/

namespace Sys2Proof.Machine

/-- `s` with another grid of the same shape. -/
def State.withGrid (s : State) (g : Memory) : State := { s with grid := g }

section SameMessage

variable {s : State} {g : Memory} (hbits : ∀ k < 6, (g.read k).toNat % 2 = (s.grid.read k).toNat % 2)
include hbits

theorem prologueFound_withGrid : (s.withGrid g).prologueFound = s.prologueFound :=
  gridValue_congr _ _ 0 6 1 fun k _ hk => hbits k (by omega)

theorem obfFound_withGrid : (s.withGrid g).obfFound = s.obfFound := by
  rw [State.obfFound, State.obfFound, prologueFound_withGrid hbits]

theorem widthFound_withGrid : (s.withGrid g).widthFound = s.widthFound := by
  rw [State.widthFound, State.widthFound, prologueFound_withGrid hbits]

variable (hchunks : ∀ k, 6 ≤ k → k < 6 + lengthChunks s.widthFound + payloadChunks s.sizeFound s.widthFound →
  (g.read k).toNat % 2 ^ s.widthFound = (s.grid.read k).toNat % 2 ^ s.widthFound)
include hchunks

theorem sizeFound_withGrid : (s.withGrid g).sizeFound = s.sizeFound := by
  rw [State.sizeFound, State.sizeFound, widthFound_withGrid hbits]
  exact congrArg (· % 2 ^ 32) (gridValue_congr _ _ _ _ _ fun k hk hk' => hchunks k hk (by omega))

theorem payloadFound_withGrid : (s.withGrid g).payloadFound = s.payloadFound := by
  rw [State.payloadFound, State.payloadFound, widthFound_withGrid hbits, sizeFound_withGrid hbits hchunks]
  exact gridValue_congr _ _ _ _ _ fun k hk hk' => hchunks k (by omega) hk'

theorem decodable_withGrid (h : s.decodable) : (s.withGrid g).decodable := by
  rw [State.decodable, obfFound_withGrid hbits, widthFound_withGrid hbits, sizeFound_withGrid hbits hchunks]
  exact h

theorem payDecoded_withGrid : (s.withGrid g).payDecoded = s.payDecoded := by
  rw [State.payDecoded, State.payDecoded, obfFound_withGrid hbits, sizeFound_withGrid hbits hchunks,
    payloadFound_withGrid hbits hchunks]
  rfl

theorem decoded_withGrid : (s.withGrid g).decoded = s.decoded.withGrid g := by
  simp only [State.decoded, State.lengthTaken, State.prologuePassed, State.prologueTaken, State.prologueRaw,
    prologueFound_withGrid hbits, obfFound_withGrid hbits, widthFound_withGrid hbits, sizeFound_withGrid hbits hchunks,
    payloadFound_withGrid hbits hchunks, payDecoded_withGrid hbits hchunks]
  rfl

end SameMessage

/-- A `DECODE` that ends in `DONE` has met none of the failures of R241. -/
theorem decodable_of_done {s t : State} (hrun : s.run ≠ .busy) (h : runCommand .decode s = .next t)
    (hdone : t.run = .done) : s.decodable := by
  by_contra hnot
  obtain ⟨u, hu, hfault, -⟩ := decodeFailsWithFirstCause s hrun hnot
  rw [h] at hu
  cases hu
  exact absurd (hdone.symm.trans hfault) (by decide)

theorem decoded_cur {s : State} (h : s.decodable) :
    s.decoded.cur.toNat = 6 + lengthChunks s.widthFound + payloadChunks s.sizeFound s.widthFound := by
  obtain ⟨-, -, -, -, hroom⟩ := h
  exact cursor_toNat s hroom

theorem decoded_bwOut (s : State) : s.decoded.bwOut.toNat = s.widthFound := by
  have hle := widthFound_le s
  exact (BitVec.toNat_ofNat _ _).trans (Nat.mod_eq_of_lt (by omega))

theorem decoded_lenOut (s : State) : s.decoded.lenOut = BitVec.ofNat 32 s.sizeFound := rfl

theorem decoded_obfOut (s : State) : s.decoded.obfOut = BitVec.ofNat 3 s.obfFound := rfl

theorem decoded_pay (s : State) : s.decoded.pay = s.payDecoded := rfl

/-- Settles O45: the decoded state is a function of the low bits that make up the sizes and the payload. -/
theorem decodeIgnoresKeepBits : Obligations.DecodeIgnoresKeepBits := by
  intro s t g hrun hdecode hdone hbits hchunks
  have hdec := decodable_of_done hrun hdecode hdone
  rw [runCommand_decode_of_decodable hrun hdec] at hdecode
  cases hdecode
  rw [decoded_cur hdec, decoded_bwOut] at hchunks
  have hrun' : (s.withGrid g).run ≠ .busy := hrun
  exact (runCommand_decode_of_decodable hrun' (decodable_withGrid hbits hchunks hdec)).trans
    (congrArg Host.Outcome.next (decoded_withGrid hbits hchunks))

end Sys2Proof.Machine

/-! R190, R268: what `ENCODE` writes, `DECODE` reads back. -/

namespace Sys2Proof.Machine

/-- The cells of `g` hold in their low bits what an `ENCODE` of `s` writes (R205). -/
structure State.SentIn (s : State) (g : Memory) : Prop where
  prologue : ∀ i < 6, (g.read (0 + i)).toNat % 2 ^ 1 = chunk s.prologueIn 1 i
  length : ∀ i < lengthChunks s.bwIn.toNat,
    (g.read (6 + i)).toNat % 2 ^ s.bwIn.toNat = chunk s.payLen.toNat s.bwIn.toNat i
  payload : ∀ i < payloadChunks s.payLen.toNat s.bwIn.toNat,
    (g.read (6 + lengthChunks s.bwIn.toNat + i)).toNat % 2 ^ s.bwIn.toNat =
      chunk (s.payloadValue s.keyPresent s.payLen.toNat) s.bwIn.toNat i

theorem prologueIn_lt {s : State} (h : s.bwIn.toNat ≤ 7) : s.prologueIn < 2 ^ (6 * 1) := by
  unfold State.prologueIn
  split <;> omega

/-- R186, R189: the bytes of the payload integer are the bytes it was made of. -/
theorem byteAt_payloadValue (s : State) (masked : Bool) {size i : Nat} (hi : i < size) :
    byteAt (s.payloadValue masked size) size i = s.payloadIn masked i := by
  have hbytes := toBytes_toInt ((List.range size).map (s.payloadIn masked))
  rw [toInt_map_range, List.length_map, List.length_range] at hbytes
  exact List.map_inj_left.mp hbytes i (List.mem_range.mpr hi)

theorem payloadValue_mod (s : State) (masked : Bool) (size : Nat) :
    s.payloadValue masked size % 2 ^ (8 * size) = s.payloadValue masked size := by
  have hlt := toInt_lt ((List.range size).map (s.payloadIn masked))
  rw [toInt_map_range, List.length_map, List.length_range] at hlt
  exact Nat.mod_eq_of_lt hlt

/-- R141, R186, R189: a byte is transformed on its way in and again on its way out, or neither. -/
theorem payloadOut_payloadValue {s d : State} (hlen : d.keyLen = s.keyLen) (hkey : d.key = s.key) (masked : Bool)
    {size i : Nat} (hi : i < size) :
    d.payloadOut masked (s.payloadValue masked size % 2 ^ (8 * size)) size i = s.pay.read i := by
  rw [payloadValue_mod, State.payloadOut, ← byteAt_eq, byteAt_payloadValue s masked hi, State.payloadIn, hlen, hkey]
  cases masked with
  | false => rfl
  | true =>
    show (_ ^^^ _) ^^^ _ = _
    rw [BitVec.xor_assoc, BitVec.xor_self, BitVec.xor_zero]

section Received

variable {s d : State} (henc : s.encodable) (hsent : s.SentIn d.grid)
include henc hsent

theorem prologueFound_of_sentIn : d.prologueFound = s.prologueIn :=
  (gridValue_of_chunks hsent.prologue).trans (Nat.mod_eq_of_lt (prologueIn_lt henc.2.1))

theorem obfFound_of_sentIn : d.obfFound = if s.keyPresent then 7 else 0 := by
  have hbw := henc.2.1
  rw [State.obfFound, prologueFound_of_sentIn henc hsent, State.prologueIn]
  omega

theorem widthFound_of_sentIn : d.widthFound = s.bwIn.toNat := by
  have hbw := henc.2.1
  rw [State.widthFound, prologueFound_of_sentIn henc hsent, State.prologueIn]
  omega

theorem sizeFound_of_sentIn : d.sizeFound = s.payLen.toNat := by
  rw [State.sizeFound, widthFound_of_sentIn henc hsent, gridValue_of_chunks hsent.length,
    Nat.mod_eq_of_lt (len_lt_lengthChunks s.payLen henc.1), Nat.mod_eq_of_lt s.payLen.isLt]

theorem payloadFound_of_sentIn : d.payloadFound = s.payloadValue s.keyPresent s.payLen.toNat := by
  rw [State.payloadFound, widthFound_of_sentIn henc hsent, sizeFound_of_sentIn henc hsent,
    gridValue_of_chunks hsent.payload, Nat.mod_eq_of_lt]
  exact payloadValue_lt { s with keyok := s.keyPresent } s.payLen.toNat henc.1

theorem decodable_of_sentIn (hctl : d.keyCtl = s.keyCtl) (hlen : d.keyLen = s.keyLen)
    (hroom : 6 + lengthChunks s.bwIn.toNat + payloadChunks s.payLen.toNat s.bwIn.toNat ≤ d.gridSize) : d.decodable := by
  rw [State.decodable, obfFound_of_sentIn henc hsent, widthFound_of_sentIn henc hsent, sizeFound_of_sentIn henc hsent]
  obtain ⟨hbw, -, hkey, -⟩ := henc
  have hpresent : d.keyPresent = s.keyPresent := by rw [State.keyPresent, State.keyPresent, hctl]
  refine ⟨by omega, ?_, hbw, fun hon => ?_, hroom⟩
  · split
    · exact .inr rfl
    · exact .inl rfl
  · have hp : s.keyPresent = true := by
      by_contra hp
      rw [if_neg hp] at hon
      exact absurd hon (by decide)
    exact ⟨hpresent.trans hp, hlen ▸ hkey hp⟩

end Received

/-- R205: an accepted `ENCODE` ends in `DONE`, and every memory that agrees with it below `CUR` holds the message. -/
theorem encode_sends {s : State} (hrun : s.run ≠ .busy) (henc : s.encodable) (hwf : s.grid.wf = true) :
    ∃ t, runCommand .encode s = .next t ∧ t.run = .done ∧
      t.cur.toNat = 6 + lengthChunks s.bwIn.toNat + payloadChunks s.payLen.toNat s.bwIn.toNat ∧
      ∀ g : Memory, (∀ k, k < t.cur.toNat → g.read k = t.grid.read k) → s.SentIn g := by
  obtain ⟨r, t, hissue, hphases, ht, -, hroom, hcells⟩ := encodeClosedForm s hrun henc hwf
  have hend : t.cur.toNat = _ := (congrArg (fun t => t.cur.toNat) ht).trans (cursor_toNat s hroom)
  refine ⟨t, (runCommand_of_next hissue).trans hphases, congrArg State.run ht, hend, fun g hsame =>
    ⟨fun i hi => ?prologue, fun i hi => ?length, fun i hi => ?payload⟩⟩
  case prologue =>
    rw [Nat.zero_add, hsame i (by omega), hcells, if_pos hi, replaceLow_mod _ (chunk_lt _ _ _)]
  case length =>
    rw [hsame _ (by omega), hcells, if_neg (by omega), if_pos (by omega), replaceLow_mod _ (chunk_lt _ _ _),
      Nat.add_sub_cancel_left]
  case payload =>
    rw [hsame _ (by omega), hcells, if_neg (by omega), if_neg (by omega), if_pos (by omega),
      replaceLow_mod _ (chunk_lt _ _ _), Nat.sub_sub, Nat.add_sub_cancel_left]

/-- Settles O46: `DECODE` finds the sizes and the integer that `ENCODE` sent, and each byte comes back as it was. -/
theorem roundTrip : Obligations.RoundTrip := by
  intro s hrun henc hwf
  obtain ⟨t, hencode, hdone, hend, hsends⟩ := encode_sends hrun henc hwf
  refine ⟨t, hencode, hdone, fun d hrun' hwf' hctl hlen hkey hsize hgrid => ?_⟩
  have hsent := hsends d.grid hgrid
  have hdec := decodable_of_sentIn henc hsent hctl hlen (by rwa [hend] at hsize)
  have hobf := obfFound_of_sentIn henc hsent
  have hwidth := widthFound_of_sentIn henc hsent
  have hlength := sizeFound_of_sentIn henc hsent
  refine ⟨d.decoded, runCommand_decode_of_decodable hrun' hdec, rfl, ?len, ?bw, ?obf, ?cur, fun i hi => ?bytes⟩
  case len =>
    rw [decoded_lenOut, hlength, BitVec.ofNat_toNat, BitVec.setWidth_eq]
  case bw =>
    exact BitVec.eq_of_toNat_eq ((decoded_bwOut d).trans hwidth)
  case obf =>
    rw [decoded_obfOut, hobf]
    cases s.keyPresent <;> rfl
  case cur =>
    refine BitVec.eq_of_toNat_eq ?_
    rw [decoded_cur hdec, hwidth, hlength, hend]
  case bytes =>
    have hmasked : decide (d.obfFound = 7) = s.keyPresent := by
      rw [hobf]
      cases s.keyPresent <;> rfl
    rw [decoded_pay, payDecoded_read hwf', hlength, if_pos hi, hmasked, payloadFound_of_sentIn henc hsent,
      payloadOut_payloadValue hlen hkey _ hi]

end Sys2Proof.Machine
